-- ==== Sys2Proof/Word.lean ====
section
/-! DEFINITION. The two word types of the block: bytes of a frame and 16-bit words (R6, R8). -/

namespace Sys2Proof

/-- An 8-bit value: a frame byte, a slave address, a function code, an exception code (R6). -/
abbrev Byte := BitVec 8

/-- A 16-bit value: the CRC accumulator, a register address, value or count, a command word (R6, R61). -/
abbrev Word := BitVec 16

end Sys2Proof
end

