-- ==== Sys2Proof/Config.lean ====
section
/-! DEFINITION. The implementation parameters of R7.

`RX_MAX_BYTES` (OPEN, D19) is no constant here: it is the field `rxMaxBytes` of the state, so that every statement over
all states holds for every value of it (log entry 3). -/

namespace Sys2Proof

/-- `WMR_MIN_VALUES`, "one or more register values" (R7). -/
def Config.wmrMinValues : Nat := 1

/-- `WMR_MAX_VALUES`, so that `byteCount` = 2·n fits in 8 bits (R7, D16). -/
def Config.wmrMaxValues : Nat := 127

/-- `RX_MAX_BYTES` = ∞, the value the spec itself licenses: "A Lean model may take `RX_MAX_BYTES = ∞`, meaning lists of
any length" (D19). `none` stands for ∞. Only `State.reset` uses it. DESIGN CHOICE, log entry 3. -/
def Config.rxUnbounded : Option Nat := none

/-- `DEFAULT_SLAVE_ADDR`, OPEN (R7, D21): held by the host; the block never reads it. It has no body, so nothing can
evaluate it. Log entry 12. -/
opaque Config.defaultSlaveAddr : Byte

end Sys2Proof
end

