-- ==== Sys2Proof/Syntax.lean ====
section
/-! DEFINITION. The whole of the block's vocabulary: function codes, commands, the host's ports, frames as structured
operands, responses and errors, and the ONE inductive of instructions, a constructor per row of spec/opcode_table.json. -/

namespace Sys2Proof

/-- The three function codes of the profile (R2): ReadHoldingRegisters, WriteSingleRegister, WriteMultipleRegisters. -/
inductive FunctionCode where
  | rhr
  | wsr
  | wmr
  deriving DecidableEq, Repr

/-- What a command word selects (R60, R62): the five operations, ENCODE and DECODE with their function code, CRC_UPDATE
with its data byte. -/
inductive Op where
  | crcInit
  | crcUpdate (b : Byte)
  | crcRead
  | enc (f : FunctionCode)
  | dec (f : FunctionCode)
  deriving DecidableEq, Repr

/-- The operand ports beside the command word (R64). `value` is what is driven on VALUE: a well-formed ENCODE 0x06
carries exactly one (D17), so the port is a list and the count is checked (log entry 14). -/
structure Ports where
  slave  : Byte
  addr   : Word
  count  : Word
  value  : List Word
  values : List Word
  frame  : List Byte
  deriving DecidableEq, Repr

/-- The two columns of R76: a function byte below 0x80 names a request format and a response format. -/
inductive Direction where
  | request
  | response
  deriving DecidableEq, Repr

/-- The operands of a table frame (rows frame.* of the table), beside its function byte: the fields of R69..R75, and
`expected`, the slave address the consuming DECODE compares with (R140). Log entries 6 and 7. -/
structure FrameFields where
  direction : Direction
  expected  : Byte
  slave     : Byte
  addr      : Word
  word      : Word
  values    : List Word
  code      : Byte
  deriving DecidableEq, Repr

/-- One thing the host issues to the block: a command (word and ports, R61, R64), or a table frame (its function byte and
fields, R76; log entry 6). -/
inductive Issue where
  | command (word : Word) (ports : Ports)
  | frame (fn : Byte) (fields : FrameFields)
  deriving DecidableEq, Repr

/-- Why a command is refused: the four reasons of R190, "for exactly these reasons". -/
inductive RefuseReason where
  /-- The word matches no row of R62 (R63). Log entry 16 for a function byte that matches no row. -/
  | reservedWord
  /-- ENCODE 0x06 without exactly one value (D17). -/
  | wsrValueCount
  /-- ENCODE 0x10 with n = 0 or n > 127 (D16). -/
  | wmrValueCount
  /-- DECODE with more than `RX_MAX_BYTES` bytes (D19). -/
  | rxTooLong
  deriving DecidableEq, Repr

/-- The decode errors, a closed set (R140, R181..R184). -/
inductive DecodeError where
  | malformedFrame
  | addressMismatch
  | deviceException (code : Byte)
  | crcMismatch
  deriving DecidableEq, Repr

/-- A decoded response (R147, R148, R149). -/
inductive Response where
  | readHolding (slave : Byte) (regs : List Word)
  | writeSingle (slave : Byte) (addr value : Word)
  | writeMultiple (slave : Byte) (addr count : Word)
  deriving DecidableEq, Repr

/-- What DECODE returns: `Ok(Response)` or `Err(DecodeError)` (R140, R188). -/
inductive Result where
  | ok (r : Response)
  | err (e : DecodeError)
  deriving DecidableEq, Repr

/-- The instructions: one constructor per row of spec/opcode_table.json, in the table's order. The nine commands carry
the operands of R64. The nine frame formats carry the fields of R69..R75; the CRC is none of them, since it is always the
CRC of every preceding byte (R103, R126). -/
inductive Instr where
  | crcInit
  | crcUpdate (b : Byte)
  | crcRead
  | encRhr (slave : Byte) (addr count : Word)
  | encWsr (slave : Byte) (addr : Word) (value : List Word)
  | encWmr (slave : Byte) (addr : Word) (values : List Word)
  | decRhr (slave : Byte) (frame : List Byte)
  | decWsr (slave : Byte) (frame : List Byte)
  | decWmr (slave : Byte) (frame : List Byte)
  | frameReqRhr (slave : Byte) (addr count : Word)
  | frameReqWsr (slave : Byte) (addr value : Word)
  | frameReqWmr (slave : Byte) (addr : Word) (values : List Word)
  | frameRspRhr (expected slave : Byte) (regs : List Word)
  | frameRspWsr (expected slave : Byte) (addr value : Word)
  | frameRspWmr (expected slave : Byte) (addr count : Word)
  | frameExcRhr (expected slave code : Byte)
  | frameExcWsr (expected slave code : Byte)
  | frameExcWmr (expected slave code : Byte)
  deriving DecidableEq, Repr

end Sys2Proof
end

