-- ==== Sys2Proof/Machine/State.lean ====
section
/-! DEFINITION. The state of the block (R29), the ports through which the host drives it, and the reasons a step can stop.

The block has no memory, no address space and no program counter (R25, R26), so the state holds none. -/

namespace Sys2Proof.Machine

/-- The output of one command (R66). "`Output` includes the refusal case" (R29). -/
inductive Output where
  /-- No command was run: the value at reset, after a reset and after an idle step (R202, R210). -/
  | none
  /-- CRC_INIT and CRC_UPDATE: "none (acknowledge)". -/
  | ack
  /-- CRC_READ: `CRC` and `CRC_WIRE` (R107, D6). -/
  | crcValue (crc : Word) (wire : List Byte)
  /-- ENCODE: `FRAME_OUT`. -/
  | frameOut (bytes : List Byte)
  /-- DECODE: `RESULT`; its STATUS and EXC_CODE are computed from it (R188, Machine/Flags). -/
  | result (r : Result)
  /-- A refused command: no output, for the reason named (R190). -/
  | refused (reason : RefuseReason)
  deriving DecidableEq, Repr

/-- What the host does next. -/
inductive HostEvent where
  /-- The host issues one command, or hands over one table frame (R10, R25). -/
  | issue (i : Issue)
  /-- A reset between two commands (R212; log entry 9). -/
  | reset
  /-- The host issues `second` while `first` is in progress, against its duty (R199, R215, D27; log entry 10). -/
  | overlap (first second : Issue)
  deriving DecidableEq, Repr

/-- Why the machine stops. -/
inductive Fault where
  /-- Raised by `step` on `HostEvent.overlap`: "`stuck`: the model has no step" (spec/93_implementation_defined.md; R215,
  D27). Safe: the hardware may do anything there and the model goes nowhere. -/
  | overlappingCommand
  deriving DecidableEq, Repr

/-- Why the model gives no meaning. No meaning of this model answers with one: the refusals of R190 are next states with
the `refused` mark set (log entry 4). -/
inductive Refusal where
  /-- An arm of `exec` without a meaning; no arm of this model raises it. Safe. -/
  | notModelled (mnemonic : String)
  deriving DecidableEq, Repr

/-- The state. `crc` and `refused` are all the spec gives the block (R29); `rxMaxBytes` is the parameter `RX_MAX_BYTES` of
this block (R7; `none` is ∞); `pending` and `out` are the model's own: what the host has yet to do, oldest first, and the
output of the command the last step ran. -/
structure State where
  /-- The CRC accumulator (R20). -/
  crc        : Word
  /-- The sticky mark of a refused command (R23). -/
  refused    : Bool
  /-- `RX_MAX_BYTES` (R7, D19), constant; `none` is ∞ (log entry 3). -/
  rxMaxBytes : Option Nat
  /-- The host's events yet to come, oldest first (R25, R48; log entry 1). -/
  pending    : List HostEvent
  /-- The output of the last step's command (R66); nothing reads it (R22; log entry 2). -/
  out        : Output
  deriving DecidableEq, Repr

/-- The block right after reset (R210): `crc` = 0xFFFF, `refused` clear. Nothing is pending and nothing is output (log
entries 1 and 2); `RX_MAX_BYTES` is ∞ (log entry 3). -/
def State.reset : State :=
  { crc := 0xFFFF#16, refused := false, rxMaxBytes := Config.rxUnbounded, pending := [], out := .none }

end Sys2Proof.Machine
end

