-- ==== Sys2Proof/Machine/Flags.lean ====
section
/-! DEFINITION. The block has no flags or condition codes (R27): no instruction computes one. What it reports beside a
DECODE's result is the numbering of R188. -/

namespace Sys2Proof.Machine

/-- `STATUS` of a DECODE's result (R188). -/
def resultStatus : Result → BitVec 3
  | .ok _ => 0#3
  | .err .malformedFrame => 1#3
  | .err .addressMismatch => 2#3
  | .err (.deviceException _) => 3#3
  | .err .crcMismatch => 4#3

/-- `EXC_CODE` of a DECODE's result (R188). -/
def resultExcCode : Result → Byte
  | .ok _ => 0x00#8
  | .err .malformedFrame => 0x00#8
  | .err .addressMismatch => 0x00#8
  | .err (.deviceException code) => code
  | .err .crcMismatch => 0x00#8

end Sys2Proof.Machine
end

