-- ==== Sys2Proof/WellFormed.lean ====
section
/-! DEFINITION. Which instructions are well formed (R64, R121), as a decidable predicate of the instruction alone. The
length of a DECODE's frame is checked against the parameter `RX_MAX_BYTES`, which the state carries (Machine/Operands). -/

namespace Sys2Proof

/-- "exactly one value" (R64, D17). -/
def wsrCountOk (value : List Word) : Bool := value.length == 1

/-- "1 ≤ n ≤ `WMR_MAX_VALUES` = 127" (R64, D16). -/
def wmrCountOk (values : List Word) : Bool :=
  decide (Config.wmrMinValues ≤ values.length) && decide (values.length ≤ Config.wmrMaxValues)

/-- A read response's byte count 2·n fits the `byteCount` byte (R72, R147: bc ≤ 254). -/
def rspCountOk (regs : List Word) : Bool := decide (regs.length ≤ 127)

/-- The static checks of R64 and R121, per constructor. -/
def Instr.wellFormed : Instr → Bool
  | .crcInit => true
  | .crcUpdate _ => true
  | .crcRead => true
  | .encRhr _ _ _ => true
  | .encWsr _ _ value => wsrCountOk value
  | .encWmr _ _ values => wmrCountOk values
  | .decRhr _ _ => true
  | .decWsr _ _ => true
  | .decWmr _ _ => true
  | .frameReqRhr _ _ _ => true
  | .frameReqWsr _ _ _ => true
  | .frameReqWmr _ _ values => wmrCountOk values
  | .frameRspRhr _ _ regs => rspCountOk regs
  | .frameRspWsr _ _ _ _ => true
  | .frameRspWmr _ _ _ _ => true
  | .frameExcRhr _ _ _ => true
  | .frameExcWsr _ _ _ => true
  | .frameExcWmr _ _ _ => true

end Sys2Proof
end

