-- ==== Sys2Proof/Decode.lean ====
section
/-! DEFINITION. The command word (R61, R62), the function byte (R76), the total decoder of what the host issues, and after
it the encoder, both written from the same tables. -/

namespace Sys2Proof

/-- The function byte of a function code (R2). -/
def FunctionCode.code : FunctionCode → Byte
  | .rhr => 0x03#8
  | .wsr => 0x06#8
  | .wmr => 0x10#8

/-- The exception function byte, "`expectedFunction | 0x80`" (R75, R144). -/
def FunctionCode.excCode (f : FunctionCode) : Byte := f.code ||| 0x80#8

/-- The function code a byte names, if it is one of the three (R2, R62). -/
def FunctionCode.ofByte (b : Byte) : Option FunctionCode :=
  if b = 0x03#8 then some .rhr
  else if b = 0x06#8 then some .wsr
  else if b = 0x10#8 then some .wmr
  else none

/-! ### The command word -/

/-- `OP`, bits [3:0] (R61). -/
def wordOp (w : Word) : BitVec 4 := w.extractLsb' 0 4

/-- `RSV`, bits [7:4], "must be 0000" (R61). -/
def wordRsv (w : Word) : BitVec 4 := w.extractLsb' 4 4

/-- `ARG`, bits [15:8] (R61). -/
def wordArg (w : Word) : Byte := w.extractLsb' 8 8

/-- A command word from its three fields (R61). -/
def mkWord (arg : Byte) (rsv op : BitVec 4) : Word :=
  (arg.setWidth 16 <<< 8) ||| (rsv.setWidth 16 <<< 4) ||| op.setWidth 16

/-- The operation a command word selects, or none: the table of R62, total on every 16-bit word (R63). -/
def decodeWord (w : Word) : Option Op :=
  if wordRsv w = 0#4 then
    if wordOp w = 1#4 then (if wordArg w = 0x00#8 then some .crcInit else none)
    else if wordOp w = 2#4 then some (.crcUpdate (wordArg w))
    else if wordOp w = 3#4 then (if wordArg w = 0x00#8 then some .crcRead else none)
    else if wordOp w = 4#4 then (FunctionCode.ofByte (wordArg w)).map Op.enc
    else if wordOp w = 5#4 then (FunctionCode.ofByte (wordArg w)).map Op.dec
    else none
  else none

/-- The command word of an operation (R62). -/
def encodeWord : Op → Word
  | .crcInit => mkWord 0x00#8 0#4 1#4
  | .crcUpdate b => mkWord b 0#4 2#4
  | .crcRead => mkWord 0x00#8 0#4 3#4
  | .enc f => mkWord f.code 0#4 4#4
  | .dec f => mkWord f.code 0#4 5#4

/-! ### What the host issues -/

/-- The instruction of an operation, with the operands of its row of R64 taken from the ports ("A command reads no
operand that is not listed in its row"). -/
def withOperands (p : Ports) : Op → Instr
  | .crcInit => .crcInit
  | .crcUpdate b => .crcUpdate b
  | .crcRead => .crcRead
  | .enc .rhr => .encRhr p.slave p.addr p.count
  | .enc .wsr => .encWsr p.slave p.addr p.value
  | .enc .wmr => .encWmr p.slave p.addr p.values
  | .dec .rhr => .decRhr p.slave p.frame
  | .dec .wsr => .decWsr p.slave p.frame
  | .dec .wmr => .decWmr p.slave p.frame

/-- The instruction of a table frame: the function byte selects the format (R76), with the direction where the byte names
a request and a response format (log entry 7). -/
def decodeFunctionByte (fn : Byte) (q : FrameFields) : Option Instr :=
  if fn = 0x03#8 then
    match q.direction with
    | .request => some (.frameReqRhr q.slave q.addr q.word)
    | .response => some (.frameRspRhr q.expected q.slave q.values)
  else if fn = 0x06#8 then
    match q.direction with
    | .request => some (.frameReqWsr q.slave q.addr q.word)
    | .response => some (.frameRspWsr q.expected q.slave q.addr q.word)
  else if fn = 0x10#8 then
    match q.direction with
    | .request => some (.frameReqWmr q.slave q.addr q.values)
    | .response => some (.frameRspWmr q.expected q.slave q.addr q.word)
  else if fn = 0x83#8 then some (.frameExcRhr q.expected q.slave q.code)
  else if fn = 0x86#8 then some (.frameExcWsr q.expected q.slave q.code)
  else if fn = 0x90#8 then some (.frameExcWmr q.expected q.slave q.code)
  else none

/-- The total decoder: an instruction, or the refusal by name of what matches no row (R63, R190). -/
def decode : Issue → Except RefuseReason Instr
  | .command w p =>
    match decodeWord w with
    | some op => .ok (withOperands p op)
    | none => .error .reservedWord
  | .frame fn q =>
    match decodeFunctionByte fn q with
    | some i => .ok i
    | none => .error .reservedWord

/-! ### The encoder -/

/-- Ports with nothing driven. -/
def Ports.zero : Ports :=
  { slave := 0#8, addr := 0#16, count := 0#16, value := [], values := [], frame := [] }

/-- Frame fields with nothing driven. -/
def FrameFields.zero : FrameFields :=
  { direction := .request, expected := 0#8, slave := 0#8, addr := 0#16, word := 0#16, values := [], code := 0#8 }

/-- What the host issues for an instruction: its word (R62) or function byte (R76) and its operands. -/
def encode : Instr → Issue
  | .crcInit => .command (encodeWord .crcInit) Ports.zero
  | .crcUpdate b => .command (encodeWord (.crcUpdate b)) Ports.zero
  | .crcRead => .command (encodeWord .crcRead) Ports.zero
  | .encRhr s a n => .command (encodeWord (.enc .rhr)) { Ports.zero with slave := s, addr := a, count := n }
  | .encWsr s a v => .command (encodeWord (.enc .wsr)) { Ports.zero with slave := s, addr := a, value := v }
  | .encWmr s a vs => .command (encodeWord (.enc .wmr)) { Ports.zero with slave := s, addr := a, values := vs }
  | .decRhr s b => .command (encodeWord (.dec .rhr)) { Ports.zero with slave := s, frame := b }
  | .decWsr s b => .command (encodeWord (.dec .wsr)) { Ports.zero with slave := s, frame := b }
  | .decWmr s b => .command (encodeWord (.dec .wmr)) { Ports.zero with slave := s, frame := b }
  | .frameReqRhr s a n => .frame 0x03#8 { FrameFields.zero with slave := s, addr := a, word := n }
  | .frameReqWsr s a v => .frame 0x06#8 { FrameFields.zero with slave := s, addr := a, word := v }
  | .frameReqWmr s a vs => .frame 0x10#8 { FrameFields.zero with slave := s, addr := a, values := vs }
  | .frameRspRhr e s r =>
    .frame 0x03#8 { FrameFields.zero with direction := .response, expected := e, slave := s, values := r }
  | .frameRspWsr e s a v =>
    .frame 0x06#8 { FrameFields.zero with direction := .response, expected := e, slave := s, addr := a, word := v }
  | .frameRspWmr e s a n =>
    .frame 0x10#8 { FrameFields.zero with direction := .response, expected := e, slave := s, addr := a, word := n }
  | .frameExcRhr e s c => .frame 0x83#8 { FrameFields.zero with expected := e, slave := s, code := c }
  | .frameExcWsr e s c => .frame 0x86#8 { FrameFields.zero with expected := e, slave := s, code := c }
  | .frameExcWmr e s c => .frame 0x90#8 { FrameFields.zero with expected := e, slave := s, code := c }

/-! ### The rows of the opcode table, and the host's question about them -/

/-- The `match` and `mask` of an instruction's row of spec/opcode_table.json (R62 for the commands, R76 for the frames),
as numbers with bit 0 the least significant bit. -/
def tableRow : Instr → Nat × Nat
  | .crcInit => (0x0001, 0xFFFF)
  | .crcUpdate _ => (0x0002, 0x00FF)
  | .crcRead => (0x0003, 0xFFFF)
  | .encRhr _ _ _ => (0x0304, 0xFFFF)
  | .encWsr _ _ _ => (0x0604, 0xFFFF)
  | .encWmr _ _ _ => (0x1004, 0xFFFF)
  | .decRhr _ _ => (0x0305, 0xFFFF)
  | .decWsr _ _ => (0x0605, 0xFFFF)
  | .decWmr _ _ => (0x1005, 0xFFFF)
  | .frameReqRhr _ _ _ => (0x03, 0xFF)
  | .frameReqWsr _ _ _ => (0x06, 0xFF)
  | .frameReqWmr _ _ _ => (0x10, 0xFF)
  | .frameRspRhr _ _ _ => (0x03, 0xFF)
  | .frameRspWsr _ _ _ _ => (0x06, 0xFF)
  | .frameRspWmr _ _ _ _ => (0x10, 0xFF)
  | .frameExcRhr _ _ _ => (0x83, 0xFF)
  | .frameExcWsr _ _ _ => (0x86, 0xFF)
  | .frameExcWmr _ _ _ => (0x90, 0xFF)

/-- The bits of an issue that the table numbers: the command word, or the function byte. -/
def Issue.tableBits : Issue → Nat
  | .command w _ => w.toNat
  | .frame fn _ => fn.toNat

/-- Whether an issue is a table frame. -/
def Issue.isFrame : Issue → Bool
  | .command _ _ => false
  | .frame _ _ => true

/-- Operand ports of zeros: every number 0, VALUE and VALUES each one zero word, no frame byte (log entry 8). -/
def Ports.zeroOperands : Ports := { Ports.zero with value := [0#16], values := [0#16] }

/-- Frame fields of zeros, with one zero word in the list of values (log entry 8). -/
def FrameFields.zeroOperands : FrameFields := { FrameFields.zero with values := [0#16] }

/-- The issue whose table bits are `w`, every operand zero: a row of at most 8 bits is a frame's function byte, a longer
one a command word (log entries 7 and 8). -/
def tableIssue (nbits w : Nat) : Issue :=
  if nbits ≤ 8 then .frame (BitVec.ofNat 8 w) FrameFields.zeroOperands
  else .command (BitVec.ofNat 16 w) Ports.zeroOperands

/-- The instruction the decoder reads from the issue whose table bits are `w` (none where it refuses). -/
def decodeTableWord (nbits w : Nat) : Option Instr :=
  match decode (tableIssue nbits w) with
  | .ok i => some i
  | .error _ => none

end Sys2Proof
end

