-- ==== Sys2Proof/Machine/Operands.lean ====
section
/-! DEFINITION. The operand forms: bytes and words of a frame (R9, R41, R77), and the length operand of DECODE (R64). -/

namespace Sys2Proof.Machine

/-- `hi8(v) = v[15:8]` (R9). -/
def hi8 (v : Word) : Byte := v.extractLsb' 8 8

/-- `lo8(v) = v[7:0]` (R9). -/
def lo8 (v : Word) : Byte := v.extractLsb' 0 8

/-- `be16(h, l) = (h << 8) | l` (R9). -/
def be16 (h l : Byte) : Word := (h.setWidth 16 <<< 8) ||| l.setWidth 16

/-- A 16-bit payload field as sent: high byte, then low byte (R41, R77). -/
def beBytes (v : Word) : List Byte := [hi8 v, lo8 v]

/-- A list of 16-bit values as sent, each high byte first (R41, R125). -/
def beList (vs : List Word) : List Byte := vs.flatMap beBytes

/-- `B[i]` (R9). Every rule reads it with `i < |B|` (R140); `d` is what the Lean function answers outside, which no result
depends on (log entry 13). -/
def byteAt (d : Byte) (B : List Byte) (i : Nat) : Byte := B.getD i d

/-- The transmitted CRC of a frame, `B[L−2] | (B[L−1] << 8)` (R43, R77). -/
def wireCrc (d : Byte) (B : List Byte) : Word :=
  (byteAt d B (B.length - 2)).setWidth 16 ||| ((byteAt d B (B.length - 1)).setWidth 16 <<< 8)

/-- `B[0 .. L−3]`: all bytes except the trailing two (R145). -/
def crcCovered (B : List Byte) : List Byte := B.take (B.length - 2)

/-- The count of VALUES that ENCODE 0x10 accepts, "1 ≤ n ≤ `WMR_MAX_VALUES` = 127" (R64, R125). -/
def wmrAccepts (values : List Word) : Bool := decide (1 ≤ values.length) && decide (values.length ≤ 127)

/-- `L ≤ RX_MAX_BYTES` (R64); `none` is ∞ (D19). -/
def rxFits (rx : Option Nat) (L : Nat) : Bool :=
  match rx with
  | none => true
  | some m => decide (L ≤ m)

end Sys2Proof.Machine
end

