-- ==== Sys2Proof/Machine/Crc.lean ====
section
/-! DEFINITION. The CRC functions (R100..R103), the table form (R112) and the catalogue form (R109). -/

namespace Sys2Proof.Machine

/-- The initial value of a CRC computation (R100, R105). -/
def crcInitial : Word := 0xFFFF#16

/-- The single shift step (R101). -/
def crcStep (c : Word) : Word :=
  if c.extractLsb' 0 1 = 1#1 then (c >>> 1) ^^^ 0xA001#16 else c >>> 1

/-- `n` shift steps. -/
def crcShift : Nat → Word → Word
  | 0, t => t
  | n + 1, t => crcShift n (crcStep t)

/-- The byte update: XOR the zero-extended byte in, then 8 shift steps (R102). -/
def crcUpdate (c : Word) (b : Byte) : Word := crcShift 8 (c ^^^ b.setWidth 16)

/-- `fold(crcUpdate, c, B)` (R108, R214). -/
def crcFold (c : Word) (B : List Byte) : Word := B.foldl crcUpdate c

/-- The CRC of a byte sequence (R100). -/
def crc16 (B : List Byte) : Word := crcFold crcInitial B

/-- The wire bytes of a CRC value, low byte first (R103). -/
def crcBytes (c : Word) : List Byte := [lo8 c, hi8 c]

/-- `P ++ crcBytes(crc16(P))` (R103, R120). -/
def withCrc (P : List Byte) : List Byte := P ++ crcBytes (crc16 P)

/-- `T[i] = crcUpdate(0x0000, i)` (R112). -/
def crcTable (i : Byte) : Word := crcUpdate 0x0000#16 i

/-- The table form of the byte update (R112). -/
def crcUpdateByTable (c : Word) (b : Byte) : Word := (c >>> 8) ^^^ crcTable (lo8 c ^^^ b)

/-! ### The catalogue form (R109)

The parameters named in R109: width 16, normal polynomial 0x8005, initial value 0xFFFF, reflected input and output, final
XOR 0x0000. The meaning of "reflected" is general knowledge, PRESUMED (log entry 17). -/

/-- One shift of a most-significant-bit-first CRC register with the normal polynomial 0x8005. -/
def catalogueStep (c : Word) : Word :=
  if c.extractLsb' 15 1 = 1#1 then (c <<< 1) ^^^ 0x8005#16 else c <<< 1

/-- `n` such shifts. -/
def catalogueShift : Nat → Word → Word
  | 0, t => t
  | n + 1, t => catalogueShift n (catalogueStep t)

/-- The byte update, the input byte reflected into the high half. -/
def catalogueUpdate (c : Word) (b : Byte) : Word :=
  catalogueShift 8 (c ^^^ (b.reverse.setWidth 16 <<< 8))

/-- The CRC by the catalogue parameters: initial value 0xFFFF, output reflected, final XOR 0x0000. -/
def catalogueCrc (B : List Byte) : Word :=
  (B.foldl catalogueUpdate 0xFFFF#16).reverse ^^^ 0x0000#16

end Sys2Proof.Machine
end

