-- ==== Sys2Proof/Machine/Frames.lean ====
section
/-! DEFINITION. The frame formats (R69..R75): each the payload of the table's row, then the CRC, low byte first. -/

namespace Sys2Proof.Machine

/-- A frame whose payload is an address and one more 16-bit field: the layout shared by R69, R70, R73 and R74. -/
def twoWordFrame (slave fn : Byte) (addr word : Word) : List Byte :=
  withCrc ([slave, fn] ++ beBytes addr ++ beBytes word)

/-- The ReadHoldingRegisters request (R69). -/
def reqRhr (slave : Byte) (addr count : Word) : List Byte :=
  twoWordFrame slave FunctionCode.rhr.code addr count

/-- The WriteSingleRegister request (R70). -/
def reqWsr (slave : Byte) (addr value : Word) : List Byte :=
  twoWordFrame slave FunctionCode.wsr.code addr value

/-- The WriteMultipleRegisters request (R71): count = n, byteCount = 2n (D16). -/
def reqWmr (slave : Byte) (addr : Word) (values : List Word) : List Byte :=
  withCrc ([slave, FunctionCode.wmr.code] ++ beBytes addr ++ beBytes (BitVec.ofNat 16 values.length)
    ++ [BitVec.ofNat 8 (2 * values.length)] ++ beList values)

/-- The ReadHoldingRegisters response (R72): bc = 2n. -/
def rspRhr (slave : Byte) (regs : List Word) : List Byte :=
  withCrc ([slave, FunctionCode.rhr.code, BitVec.ofNat 8 (2 * regs.length)] ++ beList regs)

/-- The WriteSingleRegister response (R73): the layout of the request. -/
def rspWsr (slave : Byte) (addr value : Word) : List Byte :=
  twoWordFrame slave FunctionCode.wsr.code addr value

/-- The WriteMultipleRegisters response (R74). -/
def rspWmr (slave : Byte) (addr count : Word) : List Byte :=
  twoWordFrame slave FunctionCode.wmr.code addr count

/-- The exception response (R75). -/
def excFrame (f : FunctionCode) (slave code : Byte) : List Byte :=
  withCrc [slave, f.excCode, code]

end Sys2Proof.Machine
end

