-- ==== Sys2Proof/Machine/Pipeline.lean ====
section
/-! DEFINITION. The frame decoder: the checks of R142..R146 one by one, the results of R147..R149, the whole function of
R153, and the reading of R141 and R187 that the first failing step decides.

`d` is what a read outside `B` would answer; every rule's reads lie inside (R140), so nothing depends on it (log entry
13). -/

namespace Sys2Proof.Machine

/-- `exc <- (B[1] = (F | 0x80))` (R142). -/
def isException (d : Byte) (B : List Byte) (F : FunctionCode) : Bool := byteAt d B 1 == F.excCode

/-- Step 1a: `L < 4` (R142). -/
def tooShort (B : List Byte) : Bool := decide (B.length < 4)

/-- Step 1b: a read response shorter than `3 + B[2]`, an exact integer (R142, R155). -/
def shortRead (d : Byte) (B : List Byte) (F : FunctionCode) : Bool :=
  F == .rhr && !isException d B F && decide (B.length < 3 + (byteAt d B 2).toNat)

/-- Step 2: `B[0] ≠ S` (R143). -/
def wrongAddress (d : Byte) (B : List Byte) (S : Byte) : Bool := byteAt d B 0 != S

/-- Step 3: `B[1] ≠ F and not exc` (R144). -/
def wrongFunction (d : Byte) (B : List Byte) (F : FunctionCode) : Bool :=
  byteAt d B 1 != F.code && !isException d B F

/-- Step 4: the CRC of all bytes but the trailing two differs from the transmitted one (R145). -/
def wrongCrc (d : Byte) (B : List Byte) : Bool := crc16 (crcCovered B) != wireCrc d B

/-- Step 5r: `B[2] ≠ L − 5`, over the integers (R146, R155). -/
def wrongByteCount (d : Byte) (B : List Byte) : Bool :=
  decide (((byteAt d B 2).toNat : Int) ≠ (B.length : Int) - 5)

/-- Step 5o: `B[2] is odd` (R146, D14). -/
def oddByteCount (d : Byte) (B : List Byte) : Bool := decide ((byteAt d B 2).toNat % 2 = 1)

/-- The registers of a read response, `be16(B[3+2j], B[4+2j]) for j in 0 .. bc/2 − 1` (R147). -/
def readRegs (d : Byte) (B : List Byte) : List Word :=
  (List.range ((byteAt d B 2).toNat / 2)).map fun j => be16 (byteAt d B (3 + 2 * j)) (byteAt d B (4 + 2 * j))

/-- The response of a frame that passed every step: R147, R148, R149. -/
def acceptFrame (d : Byte) (B : List Byte) : FunctionCode → Response
  | .rhr => .readHolding (byteAt d B 0) (readRegs d B)
  | .wsr => .writeSingle (byteAt d B 0) (be16 (byteAt d B 2) (byteAt d B 3)) (be16 (byteAt d B 4) (byteAt d B 5))
  | .wmr => .writeMultiple (byteAt d B 0) (be16 (byteAt d B 2) (byteAt d B 3)) (be16 (byteAt d B 4) (byteAt d B 5))

/-- Step 5 and the results (R146..R149). -/
def structureStep (d : Byte) (B : List Byte) (F : FunctionCode) : Result :=
  if isException d B F then
    if B.length ≠ 5 then .err .malformedFrame else .err (.deviceException (byteAt d B 2))
  else
    match F with
    | .rhr =>
      if wrongByteCount d B || oddByteCount d B then .err .malformedFrame else .ok (acceptFrame d B .rhr)
    | .wsr => if B.length ≠ 8 then .err .malformedFrame else .ok (acceptFrame d B .wsr)
    | .wmr => if B.length ≠ 8 then .err .malformedFrame else .ok (acceptFrame d B .wmr)

/-- The whole function (R153), in the order of R141. -/
def decodeFrameWith (d : Byte) (B : List Byte) (S : Byte) (F : FunctionCode) : Result :=
  if tooShort B then .err .malformedFrame
  else if shortRead d B F then .err .malformedFrame
  else if wrongAddress d B S then .err .addressMismatch
  else if wrongFunction d B F then .err .malformedFrame
  else if wrongCrc d B then .err .crcMismatch
  else structureStep d B F

/-- `decode(B, S, F)` (R153). -/
def decodeFrame (B : List Byte) (S : Byte) (F : FunctionCode) : Result := decodeFrameWith 0x00#8 B S F

/-! ### The failing step (R141, R187) -/

/-- The steps of the pipeline, as 95_test_vectors.md section 4 names them; `s5` is an accepted exception frame, whose
outcome is an error too. -/
inductive PipelineStep where
  | s1a
  | s1b
  | s2
  | s3
  | s4
  | s5e
  | s5
  | s5r
  | s5o
  | s5w
  deriving DecidableEq, Repr

/-- The steps in the order in which they are evaluated (R141). -/
def pipelineOrder : List PipelineStep := [.s1a, .s1b, .s2, .s3, .s4, .s5e, .s5, .s5r, .s5o, .s5w]

/-- Whether a step, on its own, fails on a frame. -/
def stepFails (B : List Byte) (S : Byte) (F : FunctionCode) : PipelineStep → Bool
  | .s1a => tooShort B
  | .s1b => shortRead 0x00#8 B F
  | .s2 => wrongAddress 0x00#8 B S
  | .s3 => wrongFunction 0x00#8 B F
  | .s4 => wrongCrc 0x00#8 B
  | .s5e => isException 0x00#8 B F && decide (B.length ≠ 5)
  | .s5 => isException 0x00#8 B F && decide (B.length = 5)
  | .s5r => F == .rhr && !isException 0x00#8 B F && wrongByteCount 0x00#8 B
  | .s5o => F == .rhr && !isException 0x00#8 B F && oddByteCount 0x00#8 B
  | .s5w => F != .rhr && !isException 0x00#8 B F && decide (B.length ≠ 8)

/-- The error a failing step reports (R181..R184). -/
def stepError (B : List Byte) : PipelineStep → DecodeError
  | .s1a => .malformedFrame
  | .s1b => .malformedFrame
  | .s2 => .addressMismatch
  | .s3 => .malformedFrame
  | .s4 => .crcMismatch
  | .s5e => .malformedFrame
  | .s5 => .deviceException (byteAt 0x00#8 B 2)
  | .s5r => .malformedFrame
  | .s5o => .malformedFrame
  | .s5w => .malformedFrame

/-- The first step, in the order of R141, that fails. -/
def failingStep (B : List Byte) (S : Byte) (F : FunctionCode) : Option PipelineStep :=
  pipelineOrder.find? (stepFails B S F)

/-- The output that "the first step that fails decides" (R141). -/
def firstFailureResult (B : List Byte) (S : Byte) (F : FunctionCode) : Result :=
  match failingStep B S F with
  | some p => .err (stepError B p)
  | none => .ok (acceptFrame 0x00#8 B F)

end Sys2Proof.Machine
end

