-- ==== Sys2Proof/Machine/Ops.lean ====
section
/-! DEFINITION. The named operations the meanings are made of, and the operations of a step that are no instruction.

There is no operation that takes an exception and none that returns from one: "The block has no trap, exception vector or
interrupt mechanism" (R180). What a refused command does is `refuse`, once for all. -/

namespace Sys2Proof.Machine

/-- What a step or a meaning answers. -/
abbrev Answer := Host.Outcome State Fault Refusal

/-- `crc <- v` (R9). -/
def State.setCrc (s : State) (v : Word) : State := { s with crc := v }

/-- The command's one output (R66). -/
def State.answer (s : State) (o : Output) : State := { s with out := o }

/-- A refused command "writes no output, leaves `crc` unchanged, and sets `refused`" (R190). The reason stands in the
output, which "includes the refusal case" (R29; log entry 4). -/
def State.refuse (s : State) (r : RefuseReason) : State := { s with refused := true, out := .refused r }

/-- The crc command that writes `v` and acknowledges (R105, R106, R66). -/
def writeCrc (v : Word) (s : State) : Answer := .next ((s.setCrc v).answer .ack)

/-- ENCODE's common end: the frame is the output, nothing else changes (R120, R122). -/
def emitFrame (B : List Byte) (s : State) : Answer := .next (s.answer (.frameOut B))

/-- ENCODE 0x10: refused unless 1 ≤ n ≤ 127 (R121, R125). -/
def encodeWmr (slave : Byte) (addr : Word) (values : List Word) (s : State) : Answer :=
  if wmrAccepts values then emitFrame (reqWmr slave addr values) s else .next (s.refuse .wmrValueCount)

/-- DECODE: refused where the frame is longer than `RX_MAX_BYTES`, else the result of R153; `crc` is unchanged (R150,
R151, R152, R190). -/
def decodeCommand (F : FunctionCode) (S : Byte) (B : List Byte) (s : State) : Answer :=
  if rxFits s.rxMaxBytes B.length then .next (s.answer (.result (decodeFrame B S F)))
  else .next (s.refuse .rxTooLong)

/-! ### Between commands -/

/-- No command: the block "holds `crc` and does nothing" (R202); no output either (R22, log entry 2). -/
def State.idle (s : State) : State := s.answer .none

/-- A reset (R210, R212): `crc` is 0xFFFF and `refused` clear. What the host has yet to do and the parameter are not the
block's to reset (log entry 9). -/
def State.resetBlock (s : State) : State := { s with crc := crcInitial, refused := false, out := .none }

/-- The host's next event, and the state with it taken from the host's list (R25, R48). -/
def State.takeEvent (s : State) : Option (HostEvent × State) :=
  match s.pending with
  | [] => none
  | e :: rest => some (e, { s with pending := rest })

/-- The state in which the host issues `i` next, before all it had yet to do. -/
def State.withIssue (s : State) (i : Issue) : State := { s with pending := .issue i :: s.pending }

end Sys2Proof.Machine
end

