-- ==== Sys2Proof/Machine/CrcGen.lean ====
section
/-! DEFINITION. The meanings of the generator commands (R105, R106, R107). -/

namespace Sys2Proof.Machine

/-- `crc.init`: `crc <- 0xFFFF` (R105). -/
def execCrcInit (s : State) : Answer := writeCrc crcInitial s

/-- `crc.update b`: `crc <- crcUpdate(crc, b)` (R106). -/
def execCrcUpdate (b : Byte) (s : State) : Answer := writeCrc (crcUpdate s.crc b) s

/-- `crc.read`: `CRC` and `CRC_WIRE`, `crc` unchanged (R107). -/
def execCrcRead (s : State) : Answer := .next (s.answer (.crcValue s.crc (crcBytes s.crc)))

end Sys2Proof.Machine
end

