-- ==== Sys2Proof/Machine/Dec.lean ====
section
/-! DEFINITION. The meanings of the DECODE commands (R150, R151, R152). -/

namespace Sys2Proof.Machine

/-- `dec.rhr S, [B]` (R150). -/
def execDecRhr (slave : Byte) (frame : List Byte) (s : State) : Answer := decodeCommand .rhr slave frame s

/-- `dec.wsr S, [B]` (R151). -/
def execDecWsr (slave : Byte) (frame : List Byte) (s : State) : Answer := decodeCommand .wsr slave frame s

/-- `dec.wmr S, [B]` (R152). -/
def execDecWmr (slave : Byte) (frame : List Byte) (s : State) : Answer := decodeCommand .wmr slave frame s

end Sys2Proof.Machine
end

