-- ==== Sys2Proof/Machine/Enc.lean ====
section
/-! DEFINITION. The meanings of the ENCODE commands (R123, R124, R125). -/

namespace Sys2Proof.Machine

/-- `enc.rhr S, A, N` (R123): any 16-bit count is encoded as given (R127). -/
def execEncRhr (slave : Byte) (addr count : Word) (s : State) : Answer := emitFrame (reqRhr slave addr count) s

/-- `enc.wsr S, A, V` (R124): refused unless VALUE carries exactly one value (R121, R190). -/
def execEncWsr (slave : Byte) (addr : Word) (value : List Word) (s : State) : Answer :=
  match value with
  | [v] => emitFrame (reqWsr slave addr v) s
  | _ => .next (s.refuse .wsrValueCount)

/-- `enc.wmr S, A, values` (R125): refused unless 1 ≤ n ≤ 127 (R121, R190). -/
def execEncWmr (slave : Byte) (addr : Word) (values : List Word) (s : State) : Answer :=
  encodeWmr slave addr values s

end Sys2Proof.Machine
end

