-- ==== Sys2Proof/Machine/FrameRows.lean ====
section
/-! DEFINITION. The meanings of the table's frame formats (R69..R75). A frame format is no command (R60); as an
instruction it has the effect of the command its row names under "produced_or_consumed_by": a request frame is what that
ENCODE outputs, a response or exception frame is what that DECODE consumes, with `expected` as the slave address of the
request. Log entry 6. -/

namespace Sys2Proof.Machine

/-- `frame.req.rhr`, produced by R123 (R69). -/
def execFrameReqRhr (slave : Byte) (addr count : Word) (s : State) : Answer := emitFrame (reqRhr slave addr count) s

/-- `frame.req.wsr`, produced by R124 (R70). -/
def execFrameReqWsr (slave : Byte) (addr value : Word) (s : State) : Answer := emitFrame (reqWsr slave addr value) s

/-- `frame.req.wmr`, produced by R125 (R71). -/
def execFrameReqWmr (slave : Byte) (addr : Word) (values : List Word) (s : State) : Answer :=
  encodeWmr slave addr values s

/-- `frame.rsp.rhr`, consumed by R150 (R72). -/
def execFrameRspRhr (expected slave : Byte) (regs : List Word) (s : State) : Answer :=
  decodeCommand .rhr expected (rspRhr slave regs) s

/-- `frame.rsp.wsr`, consumed by R151 (R73). -/
def execFrameRspWsr (expected slave : Byte) (addr value : Word) (s : State) : Answer :=
  decodeCommand .wsr expected (rspWsr slave addr value) s

/-- `frame.rsp.wmr`, consumed by R152 (R74). -/
def execFrameRspWmr (expected slave : Byte) (addr count : Word) (s : State) : Answer :=
  decodeCommand .wmr expected (rspWmr slave addr count) s

/-- `frame.exc.rhr`, consumed by R150 (R75). -/
def execFrameExcRhr (expected slave code : Byte) (s : State) : Answer :=
  decodeCommand .rhr expected (excFrame .rhr slave code) s

/-- `frame.exc.wsr`, consumed by R151 (R75). -/
def execFrameExcWsr (expected slave code : Byte) (s : State) : Answer :=
  decodeCommand .wsr expected (excFrame .wsr slave code) s

/-- `frame.exc.wmr`, consumed by R152 (R75). -/
def execFrameExcWmr (expected slave code : Byte) (s : State) : Answer :=
  decodeCommand .wmr expected (excFrame .wmr slave code) s

end Sys2Proof.Machine
end

