-- ==== Sys2Proof/Machine/Dispatch.lean ====
section
/-! DEFINITION. One arm per instruction, each one call of its meaning. -/

namespace Sys2Proof.Machine

/-- What an instruction does. -/
def exec (i : Instr) (s : State) : Host.Outcome State Fault Refusal :=
  match i with
  | .crcInit => Sys2Proof.Machine.execCrcInit s
  | .crcUpdate b => Sys2Proof.Machine.execCrcUpdate b s
  | .crcRead => Sys2Proof.Machine.execCrcRead s
  | .encRhr slave addr count => Sys2Proof.Machine.execEncRhr slave addr count s
  | .encWsr slave addr value => Sys2Proof.Machine.execEncWsr slave addr value s
  | .encWmr slave addr values => Sys2Proof.Machine.execEncWmr slave addr values s
  | .decRhr slave frame => Sys2Proof.Machine.execDecRhr slave frame s
  | .decWsr slave frame => Sys2Proof.Machine.execDecWsr slave frame s
  | .decWmr slave frame => Sys2Proof.Machine.execDecWmr slave frame s
  | .frameReqRhr slave addr count => Sys2Proof.Machine.execFrameReqRhr slave addr count s
  | .frameReqWsr slave addr value => Sys2Proof.Machine.execFrameReqWsr slave addr value s
  | .frameReqWmr slave addr values => Sys2Proof.Machine.execFrameReqWmr slave addr values s
  | .frameRspRhr expected slave regs => Sys2Proof.Machine.execFrameRspRhr expected slave regs s
  | .frameRspWsr expected slave addr value => Sys2Proof.Machine.execFrameRspWsr expected slave addr value s
  | .frameRspWmr expected slave addr count => Sys2Proof.Machine.execFrameRspWmr expected slave addr count s
  | .frameExcRhr expected slave code => Sys2Proof.Machine.execFrameExcRhr expected slave code s
  | .frameExcWsr expected slave code => Sys2Proof.Machine.execFrameExcWsr expected slave code s
  | .frameExcWmr expected slave code => Sys2Proof.Machine.execFrameExcWmr expected slave code s

end Sys2Proof.Machine
end

