-- ==== Sys2Proof/Machine/Step.lean ====
section
/-! DEFINITION. One step: the host's next event, taken from the head of `pending` (log entry 1). -/

namespace Sys2Proof.Machine

/-- What the host issues, decoded and run; what matches no row is refused (R63, R190). -/
def runIssue (i : Issue) (s : State) : Host.Outcome State Fault Refusal :=
  match decode i with
  | .ok ins => exec ins s
  | .error r => .next (s.refuse r)

/-- One step of the block (R10, R48): a command, a reset, or nothing where the host does nothing. -/
def step (s : State) : Host.Outcome State Fault Refusal :=
  match s.takeEvent with
  | none => .next s.idle
  | some (.issue i, s') => runIssue i s'
  | some (.reset, s') => .next s'.resetBlock
  | some (.overlap _ _, _) => .fault .overlappingCommand

/-- The state in which the next step runs the instruction whose table bits are `w`, every operand zero (log entries 1, 7
and 8). -/
def State.withFetchWord (s : State) (nbits w : Nat) : State := s.withIssue (tableIssue nbits w)

end Sys2Proof.Machine
end

