-- ==== Sys2Proof/Machine/Pseudo.lean ====
section
/-! DEFINITION. Sequences of commands and the two pseudo-instructions (R68). -/

namespace Sys2Proof.Machine

/-- A sequence of commands, each complete before the next begins (R48). -/
def execSeq : List Instr → State → Answer
  | [], s => .next s
  | i :: is, s =>
    match exec i s with
    | .next t => execSeq is t
    | .fault f => .fault f
    | .refused r => .refused r

/-- `crc.bytes b1 ... bn`: `crc.init`, then `crc.update` of each byte (R68). -/
def pseudoCrcBytes (bs : List Byte) : List Instr := .crcInit :: bs.map .crcUpdate

/-- `crc.residue [b0 ... bL-1]`: `crc.bytes`, then `crc.read` (R68). -/
def pseudoCrcResidue (bs : List Byte) : List Instr := pseudoCrcBytes bs ++ [.crcRead]

/-- The state in which the host issues a sequence of commands next, before all it had yet to do. -/
def State.withSequence (s : State) (is : List Instr) : State :=
  { s with pending := is.map (fun i => .issue (encode i)) ++ s.pending }

end Sys2Proof.Machine
end

