-- ==== Sys2Proof/Machine/Asm.lean ====
section
/-! DEFINITION. The assembly notation (R67, R68, D24): one line per command. Numbers are C hex or decimal; inside square
brackets, where R67's own examples write bare bytes such as `[32 03 02 12 34 B1 37]`, a number without `0x` is hexadecimal
(DEDUCED, log entry 15). No command of the block depends on this file. -/

namespace Sys2Proof.Machine

/-- The mnemonics of R67 and the two of R68. -/
inductive AsmName where
  | crcInit
  | crcUpdate
  | crcRead
  | encRhr
  | encWsr
  | encWmr
  | decRhr
  | decWsr
  | decWmr
  | crcBytes
  | crcResidue
  deriving DecidableEq, Repr

/-- What a line is made of. -/
inductive AsmToken where
  | name (n : AsmName)
  | num (n : Nat)
  | comma
  | lbracket
  | rbracket
  | lbrace
  | rbrace
  deriving DecidableEq, Repr

/-! ### From characters to tokens -/

/-- Every mnemonic. -/
def asmNames : List AsmName :=
  [.crcInit, .crcUpdate, .crcRead, .encRhr, .encWsr, .encWmr, .decRhr, .decWsr, .decWmr, .crcBytes, .crcResidue]

/-- A mnemonic's spelling (R60, R68). -/
def spelling : AsmName → List Char
  | .crcInit => ['c', 'r', 'c', '.', 'i', 'n', 'i', 't']
  | .crcUpdate => ['c', 'r', 'c', '.', 'u', 'p', 'd', 'a', 't', 'e']
  | .crcRead => ['c', 'r', 'c', '.', 'r', 'e', 'a', 'd']
  | .encRhr => ['e', 'n', 'c', '.', 'r', 'h', 'r']
  | .encWsr => ['e', 'n', 'c', '.', 'w', 's', 'r']
  | .encWmr => ['e', 'n', 'c', '.', 'w', 'm', 'r']
  | .decRhr => ['d', 'e', 'c', '.', 'r', 'h', 'r']
  | .decWsr => ['d', 'e', 'c', '.', 'w', 's', 'r']
  | .decWmr => ['d', 'e', 'c', '.', 'w', 'm', 'r']
  | .crcBytes => ['c', 'r', 'c', '.', 'b', 'y', 't', 'e', 's']
  | .crcResidue => ['c', 'r', 'c', '.', 'r', 'e', 's', 'i', 'd', 'u', 'e']

/-- The mnemonic a word spells (R60, R68). -/
def asmNameOf (w : List Char) : Option AsmName := asmNames.find? fun n => decide (spelling n = w)

/-- The value of a digit in a base of at most 16. -/
def digitOf (base : Nat) (c : Char) : Option Nat :=
  let n := c.toNat
  let v := if 48 ≤ n ∧ n ≤ 57 then n - 48
    else if 65 ≤ n ∧ n ≤ 70 then n - 55
    else if 97 ≤ n ∧ n ≤ 102 then n - 87
    else base
  if v < base then some v else none

/-- Digits of a base, most significant first, after the value read so far. -/
def digitsOf (base : Nat) (sofar : Nat) : List Char → Option Nat
  | [] => some sofar
  | c :: cs =>
    match digitOf base c with
    | some v => digitsOf base (sofar * base + v) cs
    | none => none

/-- A number: C hex after `0x`, else at least one digit of the given base (R67). -/
def numberOf (base : Nat) : List Char → Option Nat
  | [] => none
  | '0' :: 'x' :: c :: cs => digitsOf 16 0 (c :: cs)
  | c :: cs => digitsOf base 0 (c :: cs)

/-- The token of one word; bare bytes inside brackets are hexadecimal. -/
def wordToken (inBrackets : Bool) (w : List Char) : Option (List AsmToken) :=
  match w with
  | [] => some []
  | c :: cs =>
    match asmNameOf (c :: cs) with
    | some n => some [.name n]
    | none =>
      match numberOf (if inBrackets then 16 else 10) (c :: cs) with
      | some n => some [.num n]
      | none => none

/-- The punctuation of R67. -/
def punctOf (c : Char) : Option AsmToken :=
  if c = ',' then some .comma
  else if c = '[' then some .lbracket
  else if c = ']' then some .rbracket
  else if c = '\x7b' then some .lbrace
  else if c = '\x7d' then some .rbrace
  else none

/-- The tokens of a line; `w` is the word read so far, its last character first. -/
def lexFrom (inBrackets : Bool) (w : List Char) : List Char → Option (List AsmToken)
  | [] => wordToken inBrackets w.reverse
  | c :: cs =>
    if c = ' ' then
      match wordToken inBrackets w.reverse, lexFrom inBrackets [] cs with
      | some a, some b => some (a ++ b)
      | _, _ => none
    else
      match punctOf c with
      | some t =>
        match wordToken inBrackets w.reverse,
            lexFrom (if t = .lbracket then true else if t = .rbracket then false else inBrackets) [] cs with
        | some a, some b => some (a ++ t :: b)
        | _, _ => none
      | none => lexFrom inBrackets (c :: w) cs

/-! ### From tokens to commands -/

/-- A number that is a byte. -/
def asmByte (n : Nat) : Option Byte := if n < 256 then some (BitVec.ofNat 8 n) else none

/-- A number that is a 16-bit value. -/
def asmWord (n : Nat) : Option Word := if n < 65536 then some (BitVec.ofNat 16 n) else none

/-- Numbers that are bytes. -/
def asmBytes : List Nat → Option (List Byte)
  | [] => some []
  | n :: ns =>
    match asmByte n, asmBytes ns with
    | some b, some bs => some (b :: bs)
    | _, _ => none

/-- Numbers that are 16-bit values. -/
def asmWords : List Nat → Option (List Word)
  | [] => some []
  | n :: ns =>
    match asmWord n, asmWords ns with
    | some v, some vs => some (v :: vs)
    | _, _ => none

/-- "bytes separated by spaces": the leading numbers, and the rest. -/
def takeNums : List AsmToken → List Nat × List AsmToken
  | .num n :: ts => (n :: (takeNums ts).1, (takeNums ts).2)
  | ts => ([], ts)

/-- "values separated by commas": the numbers that follow a first one, and the rest. -/
def takeCommaNums : List AsmToken → List Nat × List AsmToken
  | .comma :: .num n :: ts => (n :: (takeCommaNums ts).1, (takeCommaNums ts).2)
  | ts => ([], ts)

/-- A byte list in square brackets, to the end of the line. -/
def asmBracketed : List AsmToken → Option (List Byte)
  | .lbracket :: ts =>
    match takeNums ts with
    | (ns, [.rbracket]) => asmBytes ns
    | _ => none
  | _ => none

/-- A value list in braces, to the end of the line. -/
def asmBraced : List AsmToken → Option (List Word)
  | .lbrace :: .num n :: ts =>
    match takeCommaNums ts with
    | (ns, [.rbrace]) => asmWords (n :: ns)
    | _ => none
  | _ => none

/-- `<slave>, <addr>, <word>`. -/
def asmTwoWord (mk : Byte → Word → Word → Instr) : List AsmToken → Option (List Instr)
  | [.num s, .comma, .num a, .comma, .num v] =>
    match asmByte s, asmWord a, asmWord v with
    | some s, some a, some v => some [mk s a v]
    | _, _, _ => none
  | _ => none

/-- `<slave>, [<b0> ... ]`. -/
def asmDecode (mk : Byte → List Byte → Instr) : List AsmToken → Option (List Instr)
  | .num s :: .comma :: ts =>
    match asmByte s, asmBracketed ts with
    | some s, some bs => some [mk s bs]
    | _, _ => none
  | _ => none

/-- The commands of a line's tokens (R67, R68). -/
def assemble : List AsmToken → Option (List Instr)
  | .name .crcInit :: ts => if ts = [] then some [.crcInit] else none
  | .name .crcUpdate :: ts =>
    match ts with
    | [.num b] => (asmByte b).map fun b => [.crcUpdate b]
    | _ => none
  | .name .crcRead :: ts => if ts = [] then some [.crcRead] else none
  | .name .encRhr :: ts => asmTwoWord .encRhr ts
  | .name .encWsr :: ts => asmTwoWord (fun s a v => .encWsr s a [v]) ts
  | .name .encWmr :: ts =>
    match ts with
    | .num s :: .comma :: .num a :: .comma :: us =>
      match asmByte s, asmWord a, asmBraced us with
      | some s, some a, some vs => some [.encWmr s a vs]
      | _, _, _ => none
    | _ => none
  | .name .decRhr :: ts => asmDecode .decRhr ts
  | .name .decWsr :: ts => asmDecode .decWsr ts
  | .name .decWmr :: ts => asmDecode .decWmr ts
  | .name .crcBytes :: ts =>
    match takeNums ts with
    | (ns, []) => (asmBytes ns).map pseudoCrcBytes
    | _ => none
  | .name .crcResidue :: ts => (asmBracketed ts).map pseudoCrcResidue
  | _ => none

/-- The commands of one line of text. -/
def assembleLine (line : List Char) : Option (List Instr) :=
  match lexFrom false [] line with
  | some ts => assemble ts
  | none => none

/-! ### From a command to its tokens -/

/-- Bytes in square brackets. -/
def printBytes (bs : List Byte) : List AsmToken :=
  .lbracket :: bs.map (fun b => .num b.toNat) ++ [.rbracket]

/-- Values in braces, separated by commas. -/
def printValues : List Word → List AsmToken
  | [] => [.lbrace, .rbrace]
  | v :: vs => .lbrace :: .num v.toNat :: vs.flatMap (fun u => [.comma, .num u.toNat]) ++ [.rbrace]

/-- `<slave>, <addr>, <word>`. -/
def printTwoWord (s : Byte) (a v : Word) : List AsmToken :=
  [.num s.toNat, .comma, .num a.toNat, .comma, .num v.toNat]

/-- The tokens of a well-formed command's line; none for the frame formats and for an ENCODE 0x06 that R67 cannot write. -/
def printInstr : Instr → Option (List AsmToken)
  | .crcInit => some [.name .crcInit]
  | .crcUpdate b => some [.name .crcUpdate, .num b.toNat]
  | .crcRead => some [.name .crcRead]
  | .encRhr s a n => some (.name .encRhr :: printTwoWord s a n)
  | .encWsr s a value =>
    match value with
    | [v] => some (.name .encWsr :: printTwoWord s a v)
    | _ => none
  | .encWmr s a values =>
    some (.name .encWmr :: .num s.toNat :: .comma :: .num a.toNat :: .comma :: printValues values)
  | .decRhr s b => some (.name .decRhr :: .num s.toNat :: .comma :: printBytes b)
  | .decWsr s b => some (.name .decWsr :: .num s.toNat :: .comma :: printBytes b)
  | .decWmr s b => some (.name .decWmr :: .num s.toNat :: .comma :: printBytes b)
  | .frameReqRhr _ _ _ => none
  | .frameReqWsr _ _ _ => none
  | .frameReqWmr _ _ _ => none
  | .frameRspRhr _ _ _ => none
  | .frameRspWsr _ _ _ _ => none
  | .frameRspWmr _ _ _ _ => none
  | .frameExcRhr _ _ _ => none
  | .frameExcWsr _ _ _ => none
  | .frameExcWmr _ _ _ => none

/-! ### From a command to the characters of its line -/

/-- How a number is written (R67: "C hex (`0x32`) or decimal"). -/
inductive NumStyle where
  | hexUpper
  | hexLower
  | decimal
  deriving DecidableEq, Repr

/-- The digit of a value below 16; letters are upper case but in `hexLower`. -/
def digitChar (st : NumStyle) (n : Nat) : Char :=
  if n < 10 then Char.ofNat (48 + n)
  else if st = .hexLower then Char.ofNat (87 + n)
  else Char.ofNat (55 + n)

/-- The last `k` hex digits of a number. -/
def hexText (st : NumStyle) : Nat → Nat → List Char
  | 0, _ => []
  | k + 1, n => hexText st k (n / 16) ++ [digitChar st (n % 16)]

/-- A number in decimal with no leading zero, for a number of at most `k` digits. -/
def decText : Nat → Nat → List Char
  | 0, _ => []
  | k + 1, n => (if n < 10 then [] else decText k (n / 10)) ++ [digitChar .decimal (n % 10)]

/-- A number of `k` hex digits, at most five decimal ones, in either notation of R67. -/
def numText (st : NumStyle) (k n : Nat) : List Char :=
  match st with
  | .hexUpper => '0' :: 'x' :: hexText .hexUpper k n
  | .hexLower => '0' :: 'x' :: hexText .hexLower k n
  | .decimal => decText 5 n

/-- A byte. -/
def byteText (st : NumStyle) (b : Byte) : List Char := numText st 2 b.toNat

/-- A 16-bit value. -/
def wordText (st : NumStyle) (v : Word) : List Char := numText st 4 v.toNat

/-- Texts with a separator between them. -/
def joinText (sep : List Char) : List (List Char) → List Char
  | [] => []
  | w :: ws => w ++ ws.flatMap (sep ++ ·)

/-- A byte list in square brackets, bare hex bytes separated by spaces, as the examples of R150..R152 write it. -/
def bracketText (st : NumStyle) (bs : List Byte) : List Char :=
  '[' :: joinText [' '] (bs.map fun b => hexText st 2 b.toNat) ++ [']']

/-- A value list in braces, separated by commas. -/
def braceText (st : NumStyle) (vs : List Word) : List Char :=
  '\x7b' :: joinText [',', ' '] (vs.map (wordText st)) ++ ['\x7d']

/-- A mnemonic and its operands, separated by commas. -/
def operandText (n : AsmName) (operands : List (List Char)) : List Char :=
  spelling n ++ ' ' :: joinText [',', ' '] operands

/-- The line of text of a command (R67); none for the frame formats and for an ENCODE 0x06 that R67 cannot write. -/
def lineText (st : NumStyle) : Instr → Option (List Char)
  | .crcInit => some (spelling .crcInit)
  | .crcUpdate b => some (operandText .crcUpdate [byteText st b])
  | .crcRead => some (spelling .crcRead)
  | .encRhr s a n => some (operandText .encRhr [byteText st s, wordText st a, wordText st n])
  | .encWsr s a value =>
    match value with
    | [v] => some (operandText .encWsr [byteText st s, wordText st a, wordText st v])
    | _ => none
  | .encWmr s a values => some (operandText .encWmr [byteText st s, wordText st a, braceText st values])
  | .decRhr s b => some (operandText .decRhr [byteText st s, bracketText st b])
  | .decWsr s b => some (operandText .decWsr [byteText st s, bracketText st b])
  | .decWmr s b => some (operandText .decWmr [byteText st s, bracketText st b])
  | .frameReqRhr _ _ _ => none
  | .frameReqWsr _ _ _ => none
  | .frameReqWmr _ _ _ => none
  | .frameRspRhr _ _ _ => none
  | .frameRspWsr _ _ _ _ => none
  | .frameRspWmr _ _ _ _ => none
  | .frameExcRhr _ _ _ => none
  | .frameExcWsr _ _ _ => none
  | .frameExcWmr _ _ _ => none

/-- The line of text of `crc.bytes b1 ... bn` (R68). -/
def crcBytesText (st : NumStyle) (bs : List Byte) : List Char :=
  spelling .crcBytes ++ bs.flatMap fun b => ' ' :: byteText st b

/-- The line of text of `crc.residue [b0 ... bL-1]` (R68). -/
def crcResidueText (st : NumStyle) (bs : List Byte) : List Char := operandText .crcResidue [bracketText st bs]

end Sys2Proof.Machine
end

