-- ==== Sys2Proof/Safety.lean ====
section
/-! DEFINITION. What a safe run is, in the terms claims use. -/

namespace Sys2Proof

open Sys2Proof.Machine

/-- "A claim about a command sequence takes '`refused` is clear at the end' as a premise" (R23). -/
abbrev Clean (s : State) : Prop := s.refused = false

/-- An event against the host's duty never to overlap commands (R199, R215). -/
def isOverlap : HostEvent → Bool
  | .issue _ => false
  | .reset => false
  | .overlap _ _ => true

/-- The host keeps its duty in all it has yet to do (R199, D27). -/
def keepsDuty (s : State) : Bool := s.pending.all fun e => !isOverlap e

/-- What the rules say of every output: CRC_WIRE is the wire pair of CRC (R107); a request frame is 8 to 263 bytes long
(R78) and its residue is 0x0000 (R110); a read response has at most 127 registers (R147). -/
def outputSound : Output → Bool
  | .none => true
  | .ack => true
  | .crcValue c wire => wire == crcBytes c
  | .frameOut B => decide (8 ≤ B.length) && decide (B.length ≤ 263) && crc16 B == 0x0000#16
  | .result (.ok (.readHolding _ regs)) => decide (regs.length ≤ 127)
  | .result (.ok (.writeSingle _ _ _)) => true
  | .result (.ok (.writeMultiple _ _ _)) => true
  | .result (.err _) => true
  | .refused _ => true

/-- A refused command has left its mark (R23, R190). -/
def refusalMarked (s : State) : Bool :=
  match s.out with
  | .refused _ => s.refused
  | .none => true
  | .ack => true
  | .crcValue _ _ => true
  | .frameOut _ => true
  | .result _ => true

/-- The commands that write the accumulator: CRC_INIT and CRC_UPDATE (R20, R29). -/
def writesCrc : Instr → Bool
  | .crcInit => true
  | .crcUpdate _ => true
  | _ => false

/-- The generator commands: those that read or write the accumulator (R20). -/
def usesCrc : Instr → Bool
  | .crcInit => true
  | .crcUpdate _ => true
  | .crcRead => true
  | _ => false

/-- `B[L−2] | (B[L−1] << 8)` equals the CRC of all bytes but the trailing two: the CRC field of a frame matches (R145). -/
abbrev crcFieldMatches (B : List Byte) : Prop :=
  crc16 (B.take (B.length - 2))
    = ((B.getD (B.length - 2) 0#8).setWidth 16 ||| ((B.getD (B.length - 1) 0#8).setWidth 16 <<< 8))

/-- Step 1 lets a frame pass (R142), in the rule's own terms. -/
abbrev lengthPasses (B : List Byte) (F : FunctionCode) : Prop :=
  4 ≤ B.length ∧ (F = .rhr → B.getD 1 0#8 ≠ 0x83#8 → 3 + (B.getD 2 0#8).toNat ≤ B.length)

/-- Steps 1 to 4 let a frame pass (R142..R145). -/
abbrev framePasses (B : List Byte) (S : Byte) (F : FunctionCode) : Prop :=
  lengthPasses B F ∧ B.getD 0 0#8 = S
    ∧ (B.getD 1 0#8 = F.code ∨ B.getD 1 0#8 = F.code ||| 0x80#8) ∧ crcFieldMatches B

/-- "exactly one bit flipped in byte `i`" (R157). -/
def flipBit (B : List Byte) (i k : Nat) : List Byte := B.modify i fun b => b ^^^ (1#8 <<< k)

/-- A result that R157 starts from: `Ok(...)` or `Err(DeviceException(_))`. -/
def isAnswered : Result → Bool
  | .ok _ => true
  | .err .malformedFrame => false
  | .err .addressMismatch => false
  | .err (.deviceException _) => true
  | .err .crcMismatch => false

/-- The invariant every step keeps. -/
def Inv (s : State) : Prop := keepsDuty s = true ∧ outputSound s.out = true ∧ refusalMarked s = true

end Sys2Proof
end

