-- ==== Sys2Proof/Certificates/Slice0/Obligations.lean ====
section
/-! DEFINITION. The statements for the provers. Each says in its docstring which rule of spec/ it formalises, and which
of the model's own choices (log entries of notes/assumptions) it rests on. -/

open Sys2Proof Sys2Proof.Machine

/-! ### Reset and the host interface -/

/-- R210: after reset `crc` is 0xFFFF and `refused` is clear, and "a CRC accumulated from reset without CRC_INIT still
equals `crc16` of the bytes fed". -/
def Obligations.ResetLeavesAccumulatorReady : Prop :=
  State.reset.crc = 0xFFFF#16 ∧ State.reset.refused = false ∧
  ∀ B : List Byte, ∃ t, execSeq (B.map .crcUpdate) State.reset = .next t ∧ t.crc = crc16 B ∧ t.refused = false

/-- Between commands. A reset event (R212; the event is the model's, log entry 9): `crc` becomes 0xFFFF, `refused` is
cleared, there is no output, and the host's later events and the parameter stay. Where the host does nothing, the block
holds `crc` and does nothing (R202), and no output is there (log entry 2). -/
def Obligations.BetweenCommandsResetOrHold : Prop :=
  (∀ (s : State) (q : List HostEvent), s.pending = .reset :: q →
    step s = .next { s with crc := 0xFFFF#16, refused := false, out := .none, pending := q })
  ∧ ∀ s : State, s.pending = [] → step s = .next { s with out := .none }

/-- What the host issues decodes to an instruction: the step is that instruction on the state with the event taken from
the host's list. -/
def Obligations.StepRunsTheDecodedInstruction : Prop :=
  ∀ (s : State) (j : Issue) (q : List HostEvent) (i : Instr), s.pending = .issue j :: q → decode j = .ok i →
    step s = exec i { s with pending := q }

/-- The machine stops exactly where the host overlaps two commands (R215, D27: "the model has no step for it"; the event
is the model's, log entry 10), and never for want of a meaning. -/
def Obligations.StepStopsExactlyOnOverlap : Prop :=
  ∀ s : State,
    ((∃ f, step s = .fault f) ↔ ∃ a b q, s.pending = .overlap a b :: q)
    ∧ (∀ f, step s = .fault f → f = .overlappingCommand) ∧ ∀ r, step s ≠ .refused r

/-- Issuing a sequence through the host's list and running it for its length is executing it command by command, each
complete before the next begins (R48). -/
def Obligations.IssuedSequenceIsExecutedInOrder : Prop :=
  ∀ (is : List Instr) (s : State), Host.Core.run core is.length (s.withSequence is) = execSeq is s

/-! ### The command word and the operands -/

/-- R62: the table of command words, on every 16-bit word. -/
def Obligations.CommandWordTable : Prop :=
  ∀ w : Word, decodeWord w =
    if w = 0x0001#16 then some .crcInit
    else if w &&& 0x00FF#16 = 0x0002#16 then some (.crcUpdate ((w >>> 8).setWidth 8))
    else if w = 0x0003#16 then some .crcRead
    else if w = 0x0304#16 then some (.enc .rhr)
    else if w = 0x0604#16 then some (.enc .wsr)
    else if w = 0x1004#16 then some (.enc .wmr)
    else if w = 0x0305#16 then some (.dec .rhr)
    else if w = 0x0605#16 then some (.dec .wsr)
    else if w = 0x1005#16 then some (.dec .wmr)
    else none

/-- R63: the words that match no row, by OP, RSV and ARG; each is refused as a reserved word, whatever its operands. -/
def Obligations.ReservedWordsAreRefused : Prop :=
  (∀ w : Word, decodeWord w = none ↔
    (w.toNat % 16 = 0 ∨ 6 ≤ w.toNat % 16)
    ∨ w.toNat / 16 % 16 ≠ 0
    ∨ ((w.toNat % 16 = 1 ∨ w.toNat % 16 = 3) ∧ w.toNat / 256 ≠ 0)
    ∨ ((w.toNat % 16 = 4 ∨ w.toNat % 16 = 5)
        ∧ w.toNat / 256 ≠ 0x03 ∧ w.toNat / 256 ≠ 0x06 ∧ w.toNat / 256 ≠ 0x10))
  ∧ ∀ (s : State) (w : Word) (p : Ports) (q : List HostEvent),
      s.pending = .issue (.command w p) :: q → decodeWord w = none →
      step s = .next { s with pending := q, refused := true, out := .refused .reservedWord }

/-- Decoding an encoded instruction gives it back with every operand, and an issue that decodes to an instruction has
that instruction's own word (or function byte): each word has one meaning (R61, R62, R76). -/
def Obligations.DecodeOfEncodeIsIdentity : Prop :=
  (∀ i : Instr, decode (encode i) = .ok i)
  ∧ ∀ (j : Issue) (i : Instr), decode j = .ok i →
      j.tableBits = (encode i).tableBits ∧ j.isFrame = (encode i).isFrame

/-- Some words written out from R62 and R76 decode to the instruction they stand for. -/
def Obligations.SampleWordsDecode : Prop :=
  (∀ p, decode (.command 0x3202#16 p) = .ok (.crcUpdate 0x32#8))
  ∧ (∀ p, decode (.command 0x0604#16 p) = .ok (.encWsr p.slave p.addr p.value))
  ∧ (∀ p, decode (.command 0x1005#16 p) = .ok (.decWmr p.slave p.frame))
  ∧ (∀ p, decode (.command 0x8305#16 p) = .error .reservedWord)
  ∧ ∀ q, decode (.frame 0x83#8 q) = .ok (.frameExcRhr q.expected q.slave q.code)

/-- R64: the operands each command reads, taken from the ports of its row and no other, and the constraint each row puts
on them, else refused. -/
def Obligations.CommandsReadTheListedOperands : Prop :=
  (∀ p, decode (.command 0x0001#16 p) = .ok .crcInit)
  ∧ (∀ (p : Ports) (b : Byte), decode (.command ((b.setWidth 16 <<< 8) ||| 0x0002#16) p) = .ok (.crcUpdate b))
  ∧ (∀ p, decode (.command 0x0003#16 p) = .ok .crcRead)
  ∧ (∀ p, decode (.command 0x0304#16 p) = .ok (.encRhr p.slave p.addr p.count))
  ∧ (∀ p, decode (.command 0x0604#16 p) = .ok (.encWsr p.slave p.addr p.value))
  ∧ (∀ p, decode (.command 0x1004#16 p) = .ok (.encWmr p.slave p.addr p.values))
  ∧ (∀ p, decode (.command 0x0305#16 p) = .ok (.decRhr p.slave p.frame))
  ∧ (∀ p, decode (.command 0x0605#16 p) = .ok (.decWsr p.slave p.frame))
  ∧ (∀ p, decode (.command 0x1005#16 p) = .ok (.decWmr p.slave p.frame))
  ∧ (∀ s slave addr value, value.length ≠ 1 → exec (.encWsr slave addr value) s = .next (s.refuse .wsrValueCount))
  ∧ (∀ s slave addr values, (values.length < 1 ∨ 127 < values.length) →
      exec (.encWmr slave addr values) s = .next (s.refuse .wmrValueCount))
  ∧ ∀ s m slave frame, s.rxMaxBytes = some m → m < frame.length →
      exec (.decRhr slave frame) s = .next (s.refuse .rxTooLong)
      ∧ exec (.decWsr slave frame) s = .next (s.refuse .rxTooLong)
      ∧ exec (.decWmr slave frame) s = .next (s.refuse .rxTooLong)

/-- R190: a command is refused for exactly the four reasons; it then writes no output, leaves `crc` unchanged and sets
`refused`; any other command leaves `refused` as it was. (The reason is kept in the output field, log entry 4.) -/
def Obligations.RefusalsAreExactlyTheFour : Prop :=
  ∀ (s t : State) (w : Word) (p : Ports) (q : List HostEvent),
    s.pending = .issue (.command w p) :: q → step s = .next t →
    (t.out = .refused .reservedWord ↔ decodeWord w = none)
    ∧ (t.out = .refused .wsrValueCount ↔ decodeWord w = some (.enc .wsr) ∧ p.value.length ≠ 1)
    ∧ (t.out = .refused .wmrValueCount ↔
        decodeWord w = some (.enc .wmr) ∧ (p.values.length = 0 ∨ 127 < p.values.length))
    ∧ (t.out = .refused .rxTooLong ↔
        (∃ f, decodeWord w = some (.dec f)) ∧ ∃ m, s.rxMaxBytes = some m ∧ m < p.frame.length)
    ∧ ((∃ r, t.out = .refused r) → t = { s with pending := q, refused := true, out := t.out })
    ∧ ((∀ r, t.out ≠ .refused r) → t.refused = s.refused)

/-! ### The CRC generator -/

/-- R9, R41: the bytes of a 16-bit field and the field of two bytes, high byte first. -/
def Obligations.WordsAreSentHighByteFirst : Prop :=
  ∀ (v : Word) (h l : Byte),
    (hi8 v).toNat = v.toNat / 256 ∧ (lo8 v).toNat = v.toNat % 256
    ∧ (be16 h l).toNat = 256 * h.toNat + l.toNat
    ∧ beBytes v = [hi8 v, lo8 v] ∧ be16 (hi8 v) (lo8 v) = v

/-- R105: `crc.init` has the word 0x0001, writes 0xFFFF whatever `crc` held, acknowledges and changes nothing else;
issuing it twice is the same as issuing it once. -/
def Obligations.CrcInitStartsAtFFFF : Prop :=
  (∀ p, decode (.command 0x0001#16 p) = .ok .crcInit)
  ∧ (∀ s, exec .crcInit s = .next { s with crc := 0xFFFF#16, out := .ack })
  ∧ ∀ s, execSeq [.crcInit, .crcInit] s = exec .crcInit s

/-- R101, R102, R106: the shift step, the byte update (XOR into the low 8 bits, then 8 shift steps), and `crc.update b`,
which writes it to `crc`, acknowledges and changes nothing else. -/
def Obligations.CrcUpdateFoldsOneByte : Prop :=
  (∀ c : Word, (crcStep c).toNat = if c.toNat % 2 = 1 then (c.toNat / 2) ^^^ 0xA001 else c.toNat / 2)
  ∧ (∀ (c : Word) (b : Byte), crcUpdate c b = crcStep^[8] (c ^^^ b.setWidth 16))
  ∧ (∀ (p : Ports) (b : Byte), decode (.command ((b.setWidth 16 <<< 8) ||| 0x0002#16) p) = .ok (.crcUpdate b))
  ∧ (∀ (b : Byte) (s : State), exec (.crcUpdate b) s = .next { s with crc := crcUpdate s.crc b, out := .ack })
  ∧ crcUpdate 0x0000#16 0x00#8 = 0x0000#16 ∧ crcUpdate 0xFFFF#16 0x32#8 = 0x953E#16

/-- R107: `crc.read` outputs `crc` and its wire bytes, low byte first, and changes nothing; after `crc.bytes` of the
rule's example it gives 0xC981 and `[0x81, 0xC9]`. -/
def Obligations.CrcReadGivesValueAndWireBytes : Prop :=
  (∀ p, decode (.command 0x0003#16 p) = .ok .crcRead)
  ∧ (∀ s, exec .crcRead s = .next { s with out := .crcValue s.crc [lo8 s.crc, hi8 s.crc] })
  ∧ exec .crcRead State.reset = .next { State.reset with out := .crcValue (crc16 []) [0xFF#8, 0xFF#8] }
  ∧ ∀ s, execSeq (pseudoCrcBytes [0x32#8, 0x03#8, 0x00#8, 0x00#8, 0x00#8, 0x01#8] ++ [.crcRead]) s
      = .next { s with crc := 0xC981#16, out := .crcValue 0xC981#16 [0x81#8, 0xC9#8] }

/-- R100: the CRC of the empty sequence is 0xFFFF, and each further byte is one update; no final XOR. -/
def Obligations.CrcOfASequence : Prop :=
  crc16 [] = 0xFFFF#16 ∧ ∀ (B : List Byte) (b : Byte), crc16 (B ++ [b]) = crcUpdate (crc16 B) b

/-- The incremental law (40_crc.md section 3, "[derived: from rules R100, R102, R105, R106]") on the generator:
`crc.bytes A`, then `crc.update` of each byte of `C`, leaves `crc16(A ++ C)` and changes nothing else. -/
def Obligations.GeneratorComputesCrcOfAllBytes : Prop :=
  ∀ (A C : List Byte) (s : State),
    ∃ t, execSeq (pseudoCrcBytes A ++ C.map .crcUpdate) s = .next t
      ∧ t = { s with crc := crc16 (A ++ C), out := .ack } ∧ t.crc = C.foldl crcUpdate (crc16 A)

/-- The hazard of a missing `crc.init` (70_reset_and_hazards.md section 3): updates go on from whatever `crc` holds, and no
instruction but the two that write `crc` removes it. -/
def Obligations.UpdatesContinueFromWhatCrcHolds : Prop :=
  ∀ (is : List Instr) (B : List Byte) (s : State), (∀ i ∈ is, writesCrc i = false) →
    ∃ t, execSeq (is ++ B.map .crcUpdate) s = .next t ∧ t.crc = B.foldl crcUpdate s.crc

/-- The residue law (40_crc.md section 3, "[derived: from rules R100–R103]"). -/
def Obligations.CrcResidueIsZero : Prop :=
  (∀ P : List Byte, crc16 (P ++ [lo8 (crc16 P), hi8 (crc16 P)]) = 0x0000#16)
  ∧ ∀ B : List Byte, 2 ≤ B.length → (crcFieldMatches B ↔ crc16 B = 0x0000#16)

/-- `crc.residue B` (R68) reads 0x0000 exactly when the frame's CRC field matches, in any state of the block. -/
def Obligations.ResidueProgramChecksTheFrame : Prop :=
  ∀ (B : List Byte) (s : State), 2 ≤ B.length →
    ∃ t, execSeq (pseudoCrcResidue B) s = .next t ∧ t.crc = crc16 B ∧ t.refused = s.refused
      ∧ (t.out = .crcValue 0x0000#16 [0x00#8, 0x00#8] ↔ crcFieldMatches B)

/-- Single-bit errors (40_crc.md section 3): flipping one bit of a frame whose CRC field matches leaves a residue that is
not 0x0000. -/
def Obligations.SingleBitErrorIsDetected : Prop :=
  ∀ (B : List Byte) (i k : Nat), 2 ≤ B.length → crcFieldMatches B → i < B.length → k < 8 →
    crc16 (flipBit B i k) ≠ 0x0000#16 ∧ ¬ crcFieldMatches (flipBit B i k)

/-- The table form (40_crc.md section 3, "[derived: from rules R101, R102]"), for all pairs, with the entries the spec
prints. -/
def Obligations.TableFormEqualsShiftForm : Prop :=
  (∀ (c : Word) (b : Byte),
    crcUpdate c b = (c >>> 8) ^^^ crcUpdate 0x0000#16 ((c ^^^ b.setWidth 16).setWidth 8))
  ∧ [0x00#8, 0x01#8, 0x02#8, 0x03#8, 0x04#8, 0x05#8, 0x06#8, 0x07#8, 0x80#8, 0xFF#8].map (crcUpdate 0x0000#16)
      = [0x0000#16, 0xC0C1#16, 0xC181#16, 0x0140#16, 0xC301#16, 0x03C0#16, 0x0280#16, 0xC241#16, 0xA001#16, 0x4040#16]

/-- The catalogue identity (R109, "[from general knowledge, not in source]"; log entry 17): the most-significant-bit-first
CRC with polynomial 0x8005, reflected input and output, is this CRC; the check value is 0x4B37. -/
def Obligations.CatalogueCrcIsTheSame : Prop :=
  (∀ B : List Byte, catalogueCrc B = crc16 B)
  ∧ crc16 [0x31#8, 0x32#8, 0x33#8, 0x34#8, 0x35#8, 0x36#8, 0x37#8, 0x38#8, 0x39#8] = 0x4B37#16

/-- R104: no ENCODE and no DECODE (and no table frame) reads or writes `crc`: whatever `crc` holds, the rest of what they
do is the same, and they leave it. -/
def Obligations.EncodeAndDecodeLeaveCrcAlone : Prop :=
  ∀ (i : Instr) (s : State) (c : Word), usesCrc i = false →
    ∃ t, exec i s = .next t ∧ t.crc = s.crc ∧ exec i { s with crc := c } = .next { t with crc := c }

/-! ### ENCODE -/

/-- R69, R123: the ReadHoldingRegisters request, for every slave address, address and count; nothing but the output
changes. -/
def Obligations.EncodeReadRequest : Prop :=
  (∀ p, decode (.command 0x0304#16 p) = .ok (.encRhr p.slave p.addr p.count))
  ∧ (∀ (S : Byte) (A N : Word) (s : State),
      exec (.encRhr S A N) s = .next { s with
          out := .frameOut
            ([S, 0x03#8, hi8 A, lo8 A, hi8 N, lo8 N] ++ crcBytes (crc16 [S, 0x03#8, hi8 A, lo8 A, hi8 N, lo8 N])) })
  ∧ ∀ s, exec (.encRhr 0x32#8 0x0000#16 0x0001#16) s = .next { s with
        out := .frameOut
          [0x32#8, 0x03#8, 0x00#8, 0x00#8, 0x00#8, 0x01#8, 0x81#8, 0xC9#8] }

/-- R70, R124: the WriteSingleRegister request, for every slave address, address and value; nothing but the output
changes. -/
def Obligations.EncodeWriteSingleRequest : Prop :=
  (∀ p, decode (.command 0x0604#16 p) = .ok (.encWsr p.slave p.addr p.value))
  ∧ (∀ (S : Byte) (A V : Word) (s : State),
      exec (.encWsr S A [V]) s = .next { s with
          out := .frameOut
            ([S, 0x06#8, hi8 A, lo8 A, hi8 V, lo8 V] ++ crcBytes (crc16 [S, 0x06#8, hi8 A, lo8 A, hi8 V, lo8 V])) })
  ∧ ∀ s, exec (.encWsr 0x32#8 0x0006#16 [0x00FF#16]) s = .next { s with
        out := .frameOut
          [0x32#8, 0x06#8, 0x00#8, 0x06#8, 0x00#8, 0xFF#8, 0x2C#8, 0x48#8] }

/-- R71, R125: the WriteMultipleRegisters request of 1 to 127 values: 9 + 2n bytes, count n, byteCount 2n, value j at 7
+ 2j and 8 + 2j, then the CRC of all before it; n = 0 or n > 127 is refused. Nothing but the output (or the refusal
mark) changes. -/
def Obligations.EncodeWriteMultipleRequest : Prop :=
  (∀ p, decode (.command 0x1004#16 p) = .ok (.encWmr p.slave p.addr p.values))
  ∧ (∀ (S : Byte) (A : Word) (vs : List Word) (s : State), 1 ≤ vs.length → vs.length ≤ 127 →
      ∃ P B : List Byte, exec (.encWmr S A vs) s = .next { s with out := .frameOut B }
        ∧ B = P ++ crcBytes (crc16 P) ∧ B.length = 9 + 2 * vs.length
        ∧ P.take 7 = [S, 0x10#8, hi8 A, lo8 A, 0x00#8, BitVec.ofNat 8 vs.length, BitVec.ofNat 8 (2 * vs.length)]
        ∧ ∀ (j : Nat) (V : Word), vs[j]? = some V → B[7 + 2 * j]? = some (hi8 V) ∧ B[8 + 2 * j]? = some (lo8 V))
  ∧ (∀ (S : Byte) (A : Word) (vs : List Word) (s : State), (vs.length = 0 ∨ 127 < vs.length) →
      exec (.encWmr S A vs) s = .next { s with refused := true, out := .refused .wmrValueCount })
  ∧ ∀ s, exec (.encWmr 0x32#8 0x0006#16 [0x0080#16, 0x0001#16]) s = .next { s with
        out := .frameOut
          [0x32#8, 0x10#8, 0x00#8, 0x06#8, 0x00#8, 0x02#8, 0x04#8, 0x00#8, 0x80#8, 0x00#8, 0x01#8, 0x43#8, 0xE9#8] }

/-- R121: which requests are well formed, and that every other is refused and produces no frame. -/
def Obligations.IllFormedRequestsProduceNoFrame : Prop :=
  ∀ (s t : State) (w : Word) (p : Ports) (q : List HostEvent),
    s.pending = .issue (.command w p) :: q → step s = .next t →
    ((∃ B, t.out = .frameOut B) ↔
      w = 0x0304#16 ∨ (w = 0x0604#16 ∧ p.value.length = 1)
      ∨ (w = 0x1004#16 ∧ 1 ≤ p.values.length ∧ p.values.length ≤ 127))
    ∧ (w.toNat % 16 = 4 → (∀ B, t.out ≠ .frameOut B) → t.refused = true ∧ ∃ r, t.out = .refused r)

/-- The lengths of the frames (R78): requests 8, 8 and 9 + 2n, the longest 263; responses 5 + bc, 8, 8, and 5. -/
def Obligations.FrameLengths : Prop :=
  (∀ S A N, (reqRhr S A N).length = 8) ∧ (∀ S A V, (reqWsr S A V).length = 8)
  ∧ (∀ S A vs, (reqWmr S A vs).length = 9 + 2 * vs.length)
  ∧ (∀ S A vs, wmrCountOk vs = true → (reqWmr S A vs).length ≤ 263)
  ∧ (∀ S regs, rspCountOk regs = true → (rspRhr S regs).length = 5 + ((rspRhr S regs).getD 2 0#8).toNat)
  ∧ (∀ S A V, (rspWsr S A V).length = 8) ∧ (∀ S A N, (rspWmr S A N).length = 8)
  ∧ ∀ F S c, (excFrame F S c).length = 5

/-! ### DECODE: the pipeline -/

/-- R142: step 1. Fewer than 4 bytes, or a read response that is no exception frame and shorter than 3 + B[2], is a
malformed frame, whatever else is wrong with it; an exception frame to a read has the 4-byte floor only. -/
def Obligations.LengthStepIsFirst : Prop :=
  (∀ (B : List Byte) (S : Byte) (F : FunctionCode), B.length < 4 → decodeFrame B S F = .err .malformedFrame)
  ∧ (∀ (B : List Byte) (S : Byte), B.getD 1 0#8 ≠ 0x83#8 → B.length < 3 + (B.getD 2 0#8).toNat →
      decodeFrame B S .rhr = .err .malformedFrame)
  ∧ ∀ (B : List Byte) (S : Byte) (F : FunctionCode),
      (failingStep B S F = some .s1a ∨ failingStep B S F = some .s1b) ↔ ¬ lengthPasses B F

/-- R143, R182: `AddressMismatch` is returned exactly where step 1 passes and `B[0] ≠ S`. -/
def Obligations.AddressMismatchExactly : Prop :=
  ∀ (B : List Byte) (S : Byte) (F : FunctionCode),
    decodeFrame B S F = .err .addressMismatch ↔ lengthPasses B F ∧ B.getD 0 0#8 ≠ S

/-- R144: a function byte that is neither F nor F | 0x80 is a malformed frame; an exception frame is only classified here,
and a wrong CRC in it is still a CRC mismatch (90_conflicts.md C6). -/
def Obligations.FunctionStepRejectsOtherCodes : Prop :=
  ∀ (B : List Byte) (S : Byte) (F : FunctionCode), lengthPasses B F → B.getD 0 0#8 = S →
    ((B.getD 1 0#8 ≠ F.code ∧ B.getD 1 0#8 ≠ F.code ||| 0x80#8) → decodeFrame B S F = .err .malformedFrame)
    ∧ (B.getD 1 0#8 = F.code ||| 0x80#8 → ¬ crcFieldMatches B → decodeFrame B S F = .err .crcMismatch)
    ∧ ¬ (B.getD 1 0#8 = F.code ∧ B.getD 1 0#8 = F.code ||| 0x80#8)

/-- R145, R184: `CrcMismatch` is returned exactly where steps 1 to 3 pass and the CRC of all bytes but the trailing two
differs from the transmitted CRC, low byte first. -/
def Obligations.CrcMismatchExactly : Prop :=
  ∀ (B : List Byte) (S : Byte) (F : FunctionCode),
    decodeFrame B S F = .err .crcMismatch ↔
      lengthPasses B F ∧ B.getD 0 0#8 = S
      ∧ (B.getD 1 0#8 = F.code ∨ B.getD 1 0#8 = F.code ||| 0x80#8) ∧ ¬ crcFieldMatches B

/-- R183: `DeviceException(code)` is returned exactly for a frame of 5 bytes that passes steps 1 to 4 with function
byte F | 0x80, and `code` is its byte 2, every value of it. -/
def Obligations.DeviceExceptionExactly : Prop :=
  ∀ (B : List Byte) (S : Byte) (F : FunctionCode) (c : Byte),
    decodeFrame B S F = .err (.deviceException c) ↔
      framePasses B S F ∧ B.getD 1 0#8 = F.code ||| 0x80#8 ∧ B.length = 5 ∧ B.getD 2 0#8 = c

/-- R146: step 5. What a frame that passes steps 1 to 4 gives. -/
def Obligations.StructureStepDecidesAcceptance : Prop :=
  ∀ (B : List Byte) (S : Byte) (F : FunctionCode), framePasses B S F →
    (B.getD 1 0#8 = F.code ||| 0x80#8 → decodeFrame B S F =
      if B.length ≠ 5 then .err .malformedFrame else .err (.deviceException (B.getD 2 0#8)))
    ∧ (B.getD 1 0#8 = F.code → F = .rhr →
        ((∃ r, decodeFrame B S F = .ok r) ↔
          ((B.getD 2 0#8).toNat : Int) = (B.length : Int) - 5 ∧ (B.getD 2 0#8).toNat % 2 = 0)
        ∧ ((∀ r, decodeFrame B S F ≠ .ok r) → decodeFrame B S F = .err .malformedFrame))
    ∧ (B.getD 1 0#8 = F.code → F ≠ .rhr →
        ((∃ r, decodeFrame B S F = .ok r) ↔ B.length = 8)
        ∧ ((∀ r, decodeFrame B S F ≠ .ok r) → decodeFrame B S F = .err .malformedFrame))

/-- R141, R187: the first step, in the order 1a, 1b, 2, 3, 4, 5, that fails decides the output, and a frame on which none
fails is accepted. -/
def Obligations.FirstFailingStepDecides : Prop :=
  ∀ (B : List Byte) (S : Byte) (F : FunctionCode), decodeFrame B S F = firstFailureResult B S F

/-- R147: an accepted read response carries the slave address and bc/2 registers in frame order, each big-endian; bc is
even, equals L − 5 and is at most 254. -/
def Obligations.AcceptedReadCarriesItsRegisters : Prop :=
  ∀ (B : List Byte) (S : Byte) (r : Response), decodeFrame B S .rhr = .ok r →
    ∃ regs : List Word, r = .readHolding (B.getD 0 0#8) regs
      ∧ B.length = 5 + (B.getD 2 0#8).toNat ∧ (B.getD 2 0#8).toNat % 2 = 0 ∧ (B.getD 2 0#8).toNat ≤ 254
      ∧ regs.length = (B.getD 2 0#8).toNat / 2
      ∧ ∀ j : Nat, j < regs.length →
          regs[j]? = some (be16 (B.getD (3 + 2 * j) 0#8) (B.getD (4 + 2 * j) 0#8))

/-- R148, R149: an accepted write response carries the slave address and its two 16-bit fields, raw. -/
def Obligations.AcceptedWritesCarryTheirFields : Prop :=
  ∀ (B : List Byte) (S : Byte) (r : Response),
    (decodeFrame B S .wsr = .ok r → B.length = 8 ∧ r = .writeSingle (B.getD 0 0#8)
      (be16 (B.getD 2 0#8) (B.getD 3 0#8)) (be16 (B.getD 4 0#8) (B.getD 5 0#8)))
    ∧ (decodeFrame B S .wmr = .ok r → B.length = 8 ∧ r = .writeMultiple (B.getD 0 0#8)
      (be16 (B.getD 2 0#8) (B.getD 3 0#8)) (be16 (B.getD 4 0#8) (B.getD 5 0#8)))

/-- R155: the length arithmetic of steps 1b and 5r is exact. Step 1b fails a read response exactly where its frame is not
an exception frame and has fewer than 3 + B[2] bytes, a bound within 3..258; step 5r passes exactly where L = 5 + B[2], so
never for L = 4. A read response can be accepted only with 5 to 260 bytes. -/
def Obligations.LengthArithmeticDoesNotWrap : Prop :=
  (∀ (B : List Byte) (S : Byte) (r : Response), decodeFrame B S .rhr = .ok r →
    5 ≤ B.length ∧ B.length ≤ 260 ∧ (B.getD 2 0#8).toNat = B.length - 5)
  ∧ (∀ B : List Byte, (wrongByteCount 0#8 B = false ↔ B.length = 5 + (B.getD 2 0#8).toNat)
      ∧ (B.length = 4 → wrongByteCount 0#8 B = true))
  ∧ ∀ B : List Byte, (shortRead 0#8 B .rhr = true ↔ B.getD 1 0#8 ≠ 0x83#8 ∧ B.length < 3 + (B.getD 2 0#8).toNat)
      ∧ 3 ≤ 3 + (B.getD 2 0#8).toNat ∧ 3 + (B.getD 2 0#8).toNat ≤ 258

/-- No read of `B[i]` falls outside `B` (R140): what such a read would answer makes no difference. -/
def Obligations.DecodeReadsOnlyInsideTheFrame : Prop :=
  ∀ (d : Byte) (B : List Byte) (S : Byte) (F : FunctionCode), decodeFrameWith d B S F = decodeFrame B S F

/-! ### DECODE: the commands -/

/-- R150: `dec.rhr`, its word, its result for every frame within RX_MAX_BYTES with nothing but the output changed, the
step each of its errors comes from, its corner cases and its example. -/
def Obligations.DecodeReadCommand : Prop :=
  (∀ p, decode (.command 0x0305#16 p) = .ok (.decRhr p.slave p.frame))
  ∧ (∀ (S : Byte) (B : List Byte) (s : State), (∀ m, s.rxMaxBytes = some m → B.length ≤ m) →
      exec (.decRhr S B) s = .next { s with out := .result (decodeFrame B S .rhr) })
  ∧ (∀ (B : List Byte) (S : Byte),
      (decodeFrame B S .rhr = .err .malformedFrame ↔
        failingStep B S .rhr ∈ [some .s1a, some .s1b, some .s3, some .s5e, some .s5r, some .s5o])
      ∧ (decodeFrame B S .rhr = .err .addressMismatch ↔ failingStep B S .rhr = some .s2)
      ∧ (decodeFrame B S .rhr = .err .crcMismatch ↔ failingStep B S .rhr = some .s4)
      ∧ ((∃ c, decodeFrame B S .rhr = .err (.deviceException c)) ↔ failingStep B S .rhr = some .s5))
  ∧ (∀ S : Byte, decodeFrame (rspRhr S []) S .rhr = .ok (.readHolding S []))
  ∧ (∀ (B : List Byte) (S : Byte) (r : Response), decodeFrame B S .rhr = .ok r → (B.getD 2 0#8).toNat % 2 = 0)
  ∧ (∀ (B : List Byte) (S : Byte),
      (B.length = 3 + (B.getD 2 0#8).toNat ∨ B.length = 4 + (B.getD 2 0#8).toNat) →
      shortRead 0#8 B .rhr = false
      ∧ (framePasses B S .rhr → B.getD 1 0#8 = 0x03#8 → failingStep B S .rhr = some .s5r))
  ∧ decodeFrame [0x32#8, 0x03#8, 0x00#8, 0x00#8, 0x00#8, 0x01#8, 0x81#8, 0xC9#8] 0x32#8 .rhr = .err .malformedFrame
  ∧ (∀ S c : Byte, decodeFrame (excFrame .rhr S c) S .rhr = .err (.deviceException c))
  ∧ decodeFrame [0x32#8, 0x03#8, 0x02#8, 0x12#8, 0x34#8, 0xB1#8, 0x37#8] 0x32#8 .rhr
      = .ok (.readHolding 0x32#8 [0x1234#16])

/-- R151: `dec.wsr`, its word, its result for every frame within RX_MAX_BYTES with nothing but the output changed, the
step each of its errors comes from, its corner cases and its example. -/
def Obligations.DecodeWriteSingleCommand : Prop :=
  (∀ p, decode (.command 0x0605#16 p) = .ok (.decWsr p.slave p.frame))
  ∧ (∀ (S : Byte) (B : List Byte) (s : State), (∀ m, s.rxMaxBytes = some m → B.length ≤ m) →
      exec (.decWsr S B) s = .next { s with out := .result (decodeFrame B S .wsr) })
  ∧ (∀ (B : List Byte) (S : Byte),
      (decodeFrame B S .wsr = .err .malformedFrame ↔
        failingStep B S .wsr ∈ [some .s1a, some .s3, some .s5e, some .s5w])
      ∧ (decodeFrame B S .wsr = .err .addressMismatch ↔ failingStep B S .wsr = some .s2)
      ∧ (decodeFrame B S .wsr = .err .crcMismatch ↔ failingStep B S .wsr = some .s4)
      ∧ ((∃ c, decodeFrame B S .wsr = .err (.deviceException c)) ↔ failingStep B S .wsr = some .s5))
  ∧ (∀ S c : Byte, decodeFrame (excFrame .wsr S c) S .wsr = .err (.deviceException c))
  ∧ (∀ (B : List Byte) (S : Byte), 4 ≤ B.length → B.length ≤ 7 → framePasses B S .wsr → B.getD 1 0#8 = 0x06#8 →
      failingStep B S .wsr = some .s5w)
  ∧ (∀ (S : Byte) (A V : Word), decodeFrame (rspWsr S A V) S .wsr = .ok (.writeSingle S A V))
  ∧ decodeFrame [0x32#8, 0x06#8, 0x00#8, 0x06#8, 0x00#8, 0xFF#8, 0x2C#8, 0x48#8] 0x32#8 .wsr
      = .ok (.writeSingle 0x32#8 0x0006#16 0x00FF#16)

/-- R152: `dec.wmr`, its word, its result for every frame within RX_MAX_BYTES with nothing but the output changed, the
step each of its errors comes from, its corner case (the echo of a whole 0x10 request) and its example. -/
def Obligations.DecodeWriteMultipleCommand : Prop :=
  (∀ p, decode (.command 0x1005#16 p) = .ok (.decWmr p.slave p.frame))
  ∧ (∀ (S : Byte) (B : List Byte) (s : State), (∀ m, s.rxMaxBytes = some m → B.length ≤ m) →
      exec (.decWmr S B) s = .next { s with out := .result (decodeFrame B S .wmr) })
  ∧ (∀ (B : List Byte) (S : Byte),
      (decodeFrame B S .wmr = .err .malformedFrame ↔
        failingStep B S .wmr ∈ [some .s1a, some .s3, some .s5e, some .s5w])
      ∧ (decodeFrame B S .wmr = .err .addressMismatch ↔ failingStep B S .wmr = some .s2)
      ∧ (decodeFrame B S .wmr = .err .crcMismatch ↔ failingStep B S .wmr = some .s4)
      ∧ ((∃ c, decodeFrame B S .wmr = .err (.deviceException c)) ↔ failingStep B S .wmr = some .s5))
  ∧ (∀ S c : Byte, decodeFrame (excFrame .wmr S c) S .wmr = .err (.deviceException c))
  ∧ (∀ (S : Byte) (A : Word) (vs : List Word), wmrCountOk vs = true →
      crcFieldMatches (reqWmr S A vs) ∧ decodeFrame (reqWmr S A vs) S .wmr = .err .malformedFrame)
  ∧ decodeFrame [0x32#8, 0x10#8, 0x00#8, 0x06#8, 0x00#8, 0x02#8, 0xA4#8, 0x0A#8] 0x32#8 .wmr
      = .ok (.writeMultiple 0x32#8 0x0006#16 0x0002#16)

/-- R188: the numbering of the results; 5, 6 and 7 are never produced, and an error is determined by its two numbers. -/
def Obligations.StatusNumbersTheResult : Prop :=
  (∀ r, resultStatus (.ok r) = 0#3 ∧ resultExcCode (.ok r) = 0x00#8)
  ∧ (resultStatus (.err .malformedFrame) = 1#3 ∧ resultExcCode (.err .malformedFrame) = 0x00#8)
  ∧ (resultStatus (.err .addressMismatch) = 2#3 ∧ resultExcCode (.err .addressMismatch) = 0x00#8)
  ∧ (∀ c, resultStatus (.err (.deviceException c)) = 3#3 ∧ resultExcCode (.err (.deviceException c)) = c)
  ∧ (resultStatus (.err .crcMismatch) = 4#3 ∧ resultExcCode (.err .crcMismatch) = 0x00#8)
  ∧ (∀ r, resultStatus r ≠ 5#3 ∧ resultStatus r ≠ 6#3 ∧ resultStatus r ≠ 7#3)
  ∧ ∀ e e' : DecodeError, resultStatus (.err e) = resultStatus (.err e') →
      resultExcCode (.err e) = resultExcCode (.err e') → e = e'

/-- R186: after any DecodeError the state is exactly as before the DECODE, apart from the output it returned, and the next
command is accepted normally. -/
def Obligations.DecodeErrorsLeaveNoTrace : Prop :=
  ∀ (i : Instr) (s t : State) (e : DecodeError), exec i s = .next t → t.out = .result (.err e) →
    { t with out := s.out } = s ∧ ∀ i', exec i' t = exec i' s

/-! ### The table's frame formats -/

/-- The request frames (R69, R70, R71), each the output of the ENCODE its row names (log entry 6), with that command's
effect in every state. -/
def Obligations.RequestFramesAreWhatEncodeOutputs : Prop :=
  (∀ S A N s, exec (.frameReqRhr S A N) s = .next { s with out := .frameOut (reqRhr S A N) }
    ∧ exec (.frameReqRhr S A N) s = exec (.encRhr S A N) s)
  ∧ (∀ S A V s, exec (.frameReqWsr S A V) s = .next { s with out := .frameOut (reqWsr S A V) }
    ∧ exec (.frameReqWsr S A V) s = exec (.encWsr S A [V]) s)
  ∧ (∀ S A vs s, 1 ≤ vs.length → vs.length ≤ 127 →
      exec (.frameReqWmr S A vs) s = .next { s with out := .frameOut (reqWmr S A vs) })
  ∧ ∀ S A vs s, exec (.frameReqWmr S A vs) s = exec (.encWmr S A vs) s

/-- The response frames (R72, R73, R74; log entry 6): each, consumed by the DECODE its row names, gives back its slave
address and every field, or an address mismatch where the request went to another slave; nothing but the output
changes. -/
def Obligations.ResponseFramesAreDecodedToTheirFields : Prop :=
  (∀ (E S : Byte) (regs : List Word) (s : State), regs.length ≤ 127 →
      (∀ m, s.rxMaxBytes = some m → 5 + 2 * regs.length ≤ m) →
      exec (.frameRspRhr E S regs) s = .next { s with
          out := .result
            (if S = E then .ok (.readHolding S regs) else .err .addressMismatch) })
  ∧ ∀ (E S : Byte) (A V : Word) (s : State), (∀ m, s.rxMaxBytes = some m → 8 ≤ m) →
      exec (.frameRspWsr E S A V) s = .next { s with
          out := .result
            (if S = E then .ok (.writeSingle S A V) else .err .addressMismatch) }
      ∧ exec (.frameRspWmr E S A V) s = .next { s with
          out := .result
            (if S = E then .ok (.writeMultiple S A V) else .err .addressMismatch) }

/-- The exception frames (R75; log entry 6): the function bytes of R76's exception column, the layout of the frame, and
that each, consumed by the DECODE its row names, reports its code, every value of it, or an address mismatch where the
request went to another slave; nothing but the output changes. -/
def Obligations.ExceptionFramesReportTheirCode : Prop :=
  (FunctionCode.rhr.excCode = 0x83#8 ∧ FunctionCode.wsr.excCode = 0x86#8 ∧ FunctionCode.wmr.excCode = 0x90#8)
  ∧ (∀ (F : FunctionCode) (S c : Byte), excFrame F S c
      = [S, F.code ||| 0x80#8, c] ++ crcBytes (crc16 [S, F.code ||| 0x80#8, c]))
  ∧ ∀ (E S c : Byte) (s : State), (∀ m, s.rxMaxBytes = some m → 5 ≤ m) →
    exec (.frameExcRhr E S c) s = .next { s with
        out := .result
          (if S = E then .err (.deviceException c) else .err .addressMismatch) }
    ∧ exec (.frameExcWsr E S c) s = .next { s with
        out := .result
          (if S = E then .err (.deviceException c) else .err .addressMismatch) }
    ∧ exec (.frameExcWmr E S c) s = .next { s with
        out := .result
          (if S = E then .err (.deviceException c) else .err .addressMismatch) }

/-- The table's frame formats past their limits (log entries 6 and 18): a response or exception frame longer than
RX_MAX_BYTES is refused, as the DECODE that consumes it is, and a read response of more than 127 registers, whose byte
count does not fit its byte, is decoded to a malformed frame. -/
def Obligations.TableFramesPastTheLimits : Prop :=
  (∀ (E S c : Byte) (A V : Word) (regs : List Word) (s : State) (m : Nat), s.rxMaxBytes = some m →
      (m < 5 + 2 * regs.length → exec (.frameRspRhr E S regs) s = .next (s.refuse .rxTooLong))
      ∧ (m < 8 → exec (.frameRspWsr E S A V) s = .next (s.refuse .rxTooLong)
          ∧ exec (.frameRspWmr E S A V) s = .next (s.refuse .rxTooLong))
      ∧ (m < 5 → exec (.frameExcRhr E S c) s = .next (s.refuse .rxTooLong)
          ∧ exec (.frameExcWsr E S c) s = .next (s.refuse .rxTooLong)
          ∧ exec (.frameExcWmr E S c) s = .next (s.refuse .rxTooLong)))
  ∧ ∀ (S : Byte) (regs : List Word) (s : State), 127 < regs.length →
      (∀ m, s.rxMaxBytes = some m → 5 + 2 * regs.length ≤ m) →
      exec (.frameRspRhr S S regs) s = .next { s with out := .result (.err .malformedFrame) }

/-! ### Whole-machine rules -/

/-- R193, R213: every instruction completes in every state, whatever came before it; R29 and R20 give its frame: the
host's later events and the parameter are never touched, `crc` changes only by `crc.init` and `crc.update`, and
`refused` is only ever set, by a refusal. -/
def Obligations.EveryInstructionCompletesWithinItsFrame : Prop :=
  ∀ (i : Instr) (s : State), ∃ t, exec i s = .next t
    ∧ t.pending = s.pending ∧ t.rxMaxBytes = s.rxMaxBytes
    ∧ (writesCrc i = false → t.crc = s.crc)
    ∧ (t.refused = s.refused ∨ (t.refused = true ∧ t.crc = s.crc ∧ ∃ r, t.out = .refused r))

/-- R23: the mark is set by every refused command and by nothing else; no step clears it but a reset, and a reset clears
it. (The reset event is the model's, log entry 9.) -/
def Obligations.RefusedMarkIsSticky : Prop :=
  ∀ s t : State, step s = .next t →
    (s.refused = true → t.refused = true ∨ ∃ q, s.pending = .reset :: q)
    ∧ (s.refused = false → t.refused = true → ∃ r, t.out = .refused r)
    ∧ ((∃ r, t.out = .refused r) → t.refused = true)
    ∧ ((∃ q, s.pending = .reset :: q) → t.refused = false)

/-- What the mark is for (10_state.md section 2): in a sequence that ends with `refused` clear, no command was refused. -/
def Obligations.CleanEndMeansNothingWasRefused : Prop :=
  ∀ (is is' : List Instr) (i : Instr) (s t : State), execSeq (is ++ i :: is') s = .next t → Clean t →
    ∃ u v, execSeq is s = .next u ∧ exec i u = .next v ∧ execSeq is' v = .next t
      ∧ Clean u ∧ Clean v ∧ ∀ r, v.out ≠ .refused r

/-- R22: no command can read an earlier command's output from the block: what a step does is the same whatever the output
field holds. -/
def Obligations.NoStepReadsAnEarlierOutput : Prop :=
  ∀ (s : State) (o : Output), step { s with out := o } = step s

/-- R28, R122, R156: what an ENCODE, a DECODE or a table frame outputs depends on its operands alone (and on RX_MAX_BYTES,
the parameter that may refuse it). -/
def Obligations.OutputsDependOnOperandsAlone : Prop :=
  ∀ (i : Instr) (s s' : State), usesCrc i = false → s.rxMaxBytes = s'.rxMaxBytes →
    ∃ t t', exec i s = .next t ∧ exec i s' = .next t' ∧ t.out = t'.out

/-- Every instruction but `crc.update` is idempotent: done twice, it leaves the state and the output it left the first
time. Three rules give it: R46 (20_memory.md section 3) says so of every command except the stateful CRC commands of
R105 and R106, R122 (41_encode.md section 1) of ENCODE once more, and of `crc.init`, which R46 leaves out, R105
(40_crc.md section 2) says that issuing it twice is the same as issuing it once. For the table's frame formats it follows
from what the model makes of them (log entry 6). -/
def Obligations.AllButUpdateAreIdempotent : Prop :=
  ∀ (i : Instr) (s t : State), (∀ b, i ≠ .crcUpdate b) → exec i s = .next t → exec i t = .next t

/-- The invariant holds at reset: the host's duty is kept, the output is sound, a refusal is marked. The model's own
fields at reset are its choice, not a rule: nothing pending (log entry 1), no output (log entry 2), RX_MAX_BYTES = ∞ (log
entry 3). -/
def Obligations.ResetSatisfiesInvariant : Prop :=
  Inv State.reset ∧ State.reset.pending = [] ∧ State.reset.out = .none ∧ State.reset.rxMaxBytes = none

/-- Every step keeps the invariant, from every state that meets it. Every output is sound: CRC_WIRE is the wire pair of
CRC (R107, R103); a request frame is 8 to 263 bytes long (R78) with residue 0x0000 (R110); a read response has at most 127
registers (R147). A refusal is marked (R23, R190). The host's list holds no overlap: that the host never overlaps commands
is its duty (R199, R215), and that an overlap is an event of a list a step consumes is the model's choice (log entries 1
and 10), as is the field the last output stands in (log entry 2). -/
def Obligations.StepKeepsInvariant : Prop :=
  ∀ s t : State, Inv s → step s = .next t → Inv t

/-! ### Headline laws of the decoder -/

/-- The round trip (42_decode.md section 6, "[derived: from 41_encode.md rules R123–R125 and rules R142–R149]"): the
normal response to any well-formed request decodes to a response with its slave address, under its function. -/
def Obligations.NormalResponseRoundTrips : Prop :=
  (∀ (S : Byte) (N : Nat) (data : List Byte), N ≤ 127 → data.length = 2 * N →
    ∃ regs : List Word, regs.length = N
      ∧ decodeFrame (withCrc ([S, 0x03#8, BitVec.ofNat 8 (2 * N)] ++ data)) S .rhr = .ok (.readHolding S regs))
  ∧ (∀ (S : Byte) (A V : Word), decodeFrame (reqWsr S A V) S .wsr = .ok (.writeSingle S A V))
  ∧ ∀ (S : Byte) (A : Word) (vs : List Word), 1 ≤ vs.length → vs.length ≤ 127 →
      decodeFrame (withCrc ((reqWmr S A vs).take 6)) S .wmr
        = .ok (.writeMultiple S A (BitVec.ofNat 16 vs.length))

/-- Single-bit tampering (42_decode.md section 6, "[derived: from rules R142–R146 and 40_crc.md rule R111]"): the table of
what one flipped bit in a frame that was answered gives, byte by byte (90_conflicts.md C4). -/
def Obligations.SingleBitTamperingIsCaught : Prop :=
  ∀ (B : List Byte) (S : Byte) (F : FunctionCode) (i k : Nat),
    isAnswered (decodeFrame B S F) = true → i < B.length → k < 8 →
    (i = 0 → decodeFrame (flipBit B i k) S F = .err .addressMismatch)
    ∧ (i = 1 → k = 7 → decodeFrame (flipBit B i k) S F =
        if F = .rhr ∧ B.getD 1 0#8 = 0x83#8 ∧ 2 < (B.getD 2 0#8).toNat then .err .malformedFrame
        else .err .crcMismatch)
    ∧ (i = 1 → k ≠ 7 → decodeFrame (flipBit B i k) S F = .err .malformedFrame)
    ∧ (i = 2 → B.getD 1 0#8 = 0x03#8 → decodeFrame (flipBit B i k) S F =
        if (B.getD 2 0#8).toNat + 2 < ((flipBit B i k).getD 2 0#8).toNat then .err .malformedFrame
        else .err .crcMismatch)
    ∧ ((2 < i ∨ (i = 2 ∧ B.getD 1 0#8 ≠ 0x03#8)) → decodeFrame (flipBit B i k) S F = .err .crcMismatch)

/-! ### The notation -/

/-- R67, R68: a line of text is read back as what it was written for. Every well-formed command has a line of text in
each notation of numbers (C hex in upper or lower case, decimal), of which the examples of R123, R124 and R150 are three,
and reading its characters gives that command and no other; the lines of `crc.bytes` and `crc.residue` are read as their
expansions; and on the level of tokens the same holds. That bare bytes in square brackets are hexadecimal is read from
the examples (log entry 15). -/
def Obligations.AssemblyLineRoundTrips : Prop :=
  (∀ (st : NumStyle) (i : Instr), i.wellFormed = true → (encode i).isFrame = false →
    ∃ cs, lineText st i = some cs ∧ assembleLine cs = some [i])
  ∧ (∀ (st : NumStyle) (bs : List Byte),
      assembleLine (crcBytesText st bs) = some (pseudoCrcBytes bs)
      ∧ assembleLine (crcResidueText st bs) = some (pseudoCrcResidue bs))
  ∧ lineText .hexUpper (.encRhr 0x32#8 0x0000#16 0x0001#16) = some "enc.rhr 0x32, 0x0000, 0x0001".toList
  ∧ lineText .hexUpper (.encWsr 0x32#8 0x0006#16 [0x00FF#16]) = some "enc.wsr 0x32, 0x0006, 0x00FF".toList
  ∧ lineText .hexUpper (.decRhr 0x32#8 [0x32#8, 0x03#8, 0x02#8, 0x12#8, 0x34#8, 0xB1#8, 0x37#8])
      = some "dec.rhr 0x32, [32 03 02 12 34 B1 37]".toList
  ∧ ∀ (i : Instr) (ts : List AsmToken), i.wellFormed = true → printInstr i = some ts → assemble ts = some [i]
end

