-- ==== Sys2Proof/Laws/Asm.lean ====
section
/-! SUPPORT. The notation, piece by piece: what reading makes of each piece that writing makes. -/

namespace Sys2Proof.Machine

/-! ### Words -/

/-- A mnemonic is read from its own spelling. -/
@[simp] theorem asmNameOf_spelling (n : AsmName) : asmNameOf (spelling n) = some n := by cases n <;> decide

/-- Every mnemonic has a dot in it, so a word without one is none. -/
theorem asmNameOf_eq_none (w : List Char) (h : '.' ∉ w) : asmNameOf w = none := by
  simp only [asmNameOf, List.find?_eq_none, decide_eq_true_eq]
  rintro n - rfl
  revert h
  cases n <;> decide

/-- A character that goes on with a word: no space and no punctuation. -/
def wordChar (c : Char) : Bool := c != ' ' && (punctOf c).isNone

theorem spelling_wordChars (n : AsmName) : (spelling n).all wordChar = true := by cases n <;> decide

/-- Reading passes over a word's characters and keeps them. -/
theorem lexFrom_word (br : Bool) (w acc rest : List Char) (h : w.all wordChar = true) :
    lexFrom br acc (w ++ rest) = lexFrom br (w.reverse ++ acc) rest := by
  induction w generalizing acc with
  | nil => rfl
  | cons c w ih =>
    simp only [List.all_cons, Bool.and_eq_true, wordChar, bne_iff_ne, ne_eq, Option.isNone_iff_eq_none] at h
    rw [List.cons_append, lexFrom, if_neg h.1.1, h.1.2]
    simpa using ih (c :: acc) (by simpa [wordChar] using h.2)

/-- A word that ends the line gives its own tokens. -/
theorem lexFrom_last (br : Bool) (w : List Char) (h : w.all wordChar = true) : lexFrom br [] w = wordToken br w := by
  have := lexFrom_word br w [] [] h
  simpa [lexFrom] using this

/-- A word before a space gives its tokens, and reading goes on after the space. -/
theorem lexFrom_space (br : Bool) (w rest : List Char) (ts us : List AsmToken) (h : w.all wordChar = true)
    (hw : wordToken br w = some ts) (hr : lexFrom br [] rest = some us) :
    lexFrom br [] (w ++ ' ' :: rest) = some (ts ++ us) := by
  rw [lexFrom_word br w [] _ h]
  simp [lexFrom, hw, hr]

/-- A word before a punctuation mark gives its tokens and the mark; a bracket changes how the rest is read. -/
theorem lexFrom_punct (br : Bool) (w rest : List Char) (c : Char) (t : AsmToken) (ts us : List AsmToken)
    (h : w.all wordChar = true) (hw : wordToken br w = some ts) (hc : punctOf c = some t)
    (hr : lexFrom (if t = .lbracket then true else if t = .rbracket then false else br) [] rest = some us) :
    lexFrom br [] (w ++ c :: rest) = some (ts ++ t :: us) := by
  have hs : c ≠ ' ' := by
    rintro rfl
    simp [punctOf] at hc
  rw [lexFrom_word br w [] _ h, lexFrom, if_neg hs, hc]
  simp only [List.append_nil, List.reverse_reverse, hw, hr]

/-! ### Digits and numbers -/

/-- A hex digit in any style is read as its value. -/
theorem digitOf_hex (st : NumStyle) (n : Nat) (h : n < 16) : digitOf 16 (digitChar st n) = some n := by
  have key : ∀ m : Fin 16, digitOf 16 (digitChar .hexUpper m) = some m.val ∧ digitOf 16 (digitChar .hexLower m) = some m.val
    ∧ digitOf 16 (digitChar .decimal m) = some m.val := by decide
  cases st
  · exact (key ⟨n, h⟩).1
  · exact (key ⟨n, h⟩).2.1
  · exact (key ⟨n, h⟩).2.2

/-- A decimal digit is read as its value. -/
theorem digitOf_dec (n : Nat) (h : n < 10) : digitOf 10 (digitChar .decimal n) = some n := by
  have key : ∀ m : Fin 10, digitOf 10 (digitChar .decimal m) = some m.val := by decide
  exact key ⟨n, h⟩

/-- Digits are read from left to right. -/
theorem digitsOf_append (base k : Nat) (v w : List Char) :
    digitsOf base k (v ++ w) = (digitsOf base k v).bind fun m => digitsOf base m w := by
  induction v generalizing k with
  | nil => rfl
  | cons c v ih =>
    simp only [List.cons_append, digitsOf]
    cases digitOf base c with
    | none => rfl
    | some d => exact ih _

/-- `k` hex digits are read as the number they were written for. -/
theorem digitsOf_hexText (st : NumStyle) (k n : Nat) (h : n < 16 ^ k) : digitsOf 16 0 (hexText st k n) = some n := by
  induction k generalizing n with
  | zero => simp only [pow_zero, Nat.lt_one_iff] at h; subst h; rfl
  | succ k ih =>
    have hq : n / 16 < 16 ^ k := by rw [pow_succ] at h; omega
    rw [hexText, digitsOf_append, ih _ hq, Option.bind_some, digitsOf, digitOf_hex st _ (by omega)]
    simp only [digitsOf, Option.some.injEq]
    omega

/-- Decimal digits are read as the number they were written for. -/
theorem digitsOf_decText (k n : Nat) (h : n < 10 ^ (k + 1)) : digitsOf 10 0 (decText (k + 1) n) = some n := by
  induction k generalizing n with
  | zero =>
    have hn : n < 10 := by simpa using h
    simp [decText, hn, digitsOf, Nat.mod_eq_of_lt hn, digitOf_dec n hn]
  | succ k ih =>
    rw [decText, digitsOf_append]
    by_cases hn : n < 10
    · simp [hn, digitsOf, Nat.mod_eq_of_lt hn, digitOf_dec n hn]
    · have hq : n / 10 < 10 ^ (k + 1) := by rw [pow_succ] at h; omega
      rw [if_neg hn, ih _ hq, Option.bind_some, digitsOf, digitOf_dec _ (by omega)]
      simp only [digitsOf, Option.some.injEq]
      omega

/-- The characters of a number: word characters, and no dot. -/
def numChar (c : Char) : Bool := wordChar c && c != '.'

theorem digitChar_numChar (st : NumStyle) (n : Nat) (h : n < 16) : numChar (digitChar st n) = true := by
  have key : ∀ m : Fin 16, numChar (digitChar .hexUpper m) = true ∧ numChar (digitChar .hexLower m) = true
    ∧ numChar (digitChar .decimal m) = true := by decide
  cases st
  · exact (key ⟨n, h⟩).1
  · exact (key ⟨n, h⟩).2.1
  · exact (key ⟨n, h⟩).2.2

theorem hexText_numChars (st : NumStyle) (k n : Nat) : (hexText st k n).all numChar = true := by
  induction k generalizing n with
  | zero => rfl
  | succ k ih => simp [hexText, ih, digitChar_numChar st (n % 16) (by omega)]

theorem decText_numChars (k n : Nat) : (decText k n).all numChar = true := by
  induction k generalizing n with
  | zero => rfl
  | succ k ih => by_cases hn : n < 10 <;> simp [decText, hn, ih, digitChar_numChar .decimal (n % 10) (by omega)]

theorem numText_numChars (st : NumStyle) (k n : Nat) : (numText st k n).all numChar = true := by
  have hx : numChar '0' = true ∧ numChar 'x' = true := by decide
  cases st <;> simp only [numText, List.all_cons, hx, hexText_numChars, decText_numChars, Bool.and_self]

theorem wordChars_of_numChars (w : List Char) (h : w.all numChar = true) : w.all wordChar = true := by
  simp only [List.all_eq_true, numChar, Bool.and_eq_true] at h ⊢
  exact fun c hc => (h c hc).1

theorem no_dot_of_numChars (w : List Char) (h : w.all numChar = true) : '.' ∉ w := by
  intro hm
  have := List.all_eq_true.mp h _ hm
  revert this
  decide

/-- A word of digits alone is read in its base. -/
theorem numberOf_digits (base n : Nat) (w : List Char) (hw : w ≠ []) (h : digitsOf base 0 w = some n) :
    numberOf base w = some n := by
  have hx : digitOf base 'x' = none := by simp [digitOf]
  unfold numberOf
  split
  · exact absurd rfl hw
  · simp only [digitsOf, hx] at h
    split at h <;> cases h
  · exact h

/-- A word that reads as a number gives one token. -/
theorem wordToken_num (br : Bool) (w : List Char) (n : Nat) (hw : w.all numChar = true)
    (h : numberOf (if br then 16 else 10) w = some n) : wordToken br w = some [.num n] := by
  have hn := asmNameOf_eq_none w (no_dot_of_numChars w hw)
  cases w with
  | nil => cases h
  | cons c w => simp only [wordToken, hn, h]

/-- A mnemonic's spelling gives the mnemonic. -/
theorem wordToken_spelling (br : Bool) (n : AsmName) : wordToken br (spelling n) = some [.name n] := by
  have h := asmNameOf_spelling n
  cases hs : spelling n with
  | nil => cases n <;> cases hs
  | cons c w => rw [hs] at h; simp only [wordToken, h]

theorem hexText_ne_nil (st : NumStyle) (k n : Nat) : hexText st (k + 1) n ≠ [] := by simp [hexText]

/-- Outside brackets a number is read back in either notation. -/
theorem wordToken_numText (st : NumStyle) (k n : Nat) (h : n < 16 ^ (k + 1)) (h5 : n < 100000) :
    wordToken false (numText st (k + 1) n) = some [.num n] := by
  refine wordToken_num false _ n (numText_numChars st _ n) ?_
  have hex : ∀ st, numberOf 10 ('0' :: 'x' :: hexText st (k + 1) n) = some n := by
    intro st
    have hd := digitsOf_hexText st (k + 1) n h
    cases hs : hexText st (k + 1) n with
    | nil => exact absurd hs (hexText_ne_nil st k n)
    | cons c w => rw [hs] at hd; simpa [numberOf] using hd
  cases st
  · exact hex .hexUpper
  · exact hex .hexLower
  · refine numberOf_digits 10 n _ ?_ (digitsOf_decText 4 n (by simpa using h5))
    simp [numText, decText]

/-- Inside brackets a bare byte is read back as hexadecimal. -/
theorem wordToken_hexText (st : NumStyle) (b : Byte) :
    wordToken true (hexText st 2 b.toNat) = some [.num b.toNat] :=
  wordToken_num true _ _ (hexText_numChars st 2 _)
    (numberOf_digits 16 _ _ (hexText_ne_nil st 1 _) (digitsOf_hexText st 2 _ b.isLt))

/-- A byte outside brackets. -/
theorem wordToken_byteText (st : NumStyle) (b : Byte) : wordToken false (byteText st b) = some [.num b.toNat] :=
  wordToken_numText st 1 _ b.isLt (by have := b.isLt; omega)

/-- A 16-bit value outside brackets. -/
theorem wordToken_wordText (st : NumStyle) (v : Word) : wordToken false (wordText st v) = some [.num v.toNat] :=
  wordToken_numText st 3 _ v.isLt (by have := v.isLt; omega)

/-! ### Lists of bytes and of values -/

theorem byteText_wordChars (st : NumStyle) (b : Byte) : (byteText st b).all wordChar = true :=
  wordChars_of_numChars _ (numText_numChars _ _ _)

theorem wordText_wordChars (st : NumStyle) (v : Word) : (wordText st v).all wordChar = true :=
  wordChars_of_numChars _ (numText_numChars _ _ _)

theorem hexText_wordChars (st : NumStyle) (k n : Nat) : (hexText st k n).all wordChar = true :=
  wordChars_of_numChars _ (hexText_numChars _ _ _)

/-- A space before a word is passed over. -/
theorem lexFrom_skip (br : Bool) (rest : List Char) (us : List AsmToken) (h : lexFrom br [] rest = some us) :
    lexFrom br [] (' ' :: rest) = some us := lexFrom_space br [] rest [] us rfl rfl h

/-- The bytes after the first of a bracketed list, and its end. -/
theorem lexFrom_spacedBytes (st : NumStyle) (bs : List Byte) (w : List Char) (t : AsmToken)
    (h : w.all wordChar = true) (ht : wordToken true w = some [t]) :
    lexFrom true [] (w ++ ((bs.map fun b => hexText st 2 b.toNat).flatMap ([' '] ++ ·) ++ [']']))
      = some (t :: bs.map (fun b => .num b.toNat) ++ [.rbracket]) := by
  induction bs generalizing w t with
  | nil => exact lexFrom_punct true w [] ']' .rbracket [t] [] h ht rfl rfl
  | cons b bs ih =>
    have step := lexFrom_space true w _ _ _ h ht (ih _ _ (hexText_wordChars st 2 _) (wordToken_hexText st b))
    simpa using step

/-- A bracketed byte list gives its tokens. -/
theorem lexFrom_bracketText (st : NumStyle) (bs : List Byte) :
    lexFrom false [] (bracketText st bs) = some (printBytes bs) := by
  have inside : lexFrom true [] (joinText [' '] (bs.map fun b => hexText st 2 b.toNat) ++ [']'])
      = some (bs.map (fun b => .num b.toNat) ++ [.rbracket]) := by
    cases bs with
    | nil => rfl
    | cons b bs =>
      simpa [joinText] using lexFrom_spacedBytes st bs _ _ (hexText_wordChars st 2 _) (wordToken_hexText st b)
  exact lexFrom_punct false [] _ '[' .lbracket [] _ rfl rfl rfl inside

/-- The values after the first of a braced list, and its end. -/
theorem lexFrom_commaedWords (st : NumStyle) (vs : List Word) (w : List Char) (t : AsmToken)
    (h : w.all wordChar = true) (ht : wordToken false w = some [t]) :
    lexFrom false [] (w ++ ((vs.map (wordText st)).flatMap ([',', ' '] ++ ·) ++ ['\x7d']))
      = some (t :: vs.flatMap (fun u => [AsmToken.comma, .num u.toNat]) ++ [.rbrace]) := by
  induction vs generalizing w t with
  | nil => exact lexFrom_punct false w [] '\x7d' .rbrace [t] [] h ht rfl rfl
  | cons v vs ih =>
    have step := lexFrom_punct false w _ ',' .comma _ _ h ht rfl
      (lexFrom_skip _ _ _ (ih _ _ (wordText_wordChars st v) (wordToken_wordText st v)))
    simpa using step

/-- A braced value list gives its tokens. -/
theorem lexFrom_braceText (st : NumStyle) (vs : List Word) :
    lexFrom false [] (braceText st vs) = some (printValues vs) := by
  have inside : lexFrom false [] (joinText [',', ' '] (vs.map (wordText st)) ++ ['\x7d'])
      = some (printValues vs).tail := by
    cases vs with
    | nil => rfl
    | cons v vs =>
      simpa [joinText, printValues] using
        lexFrom_commaedWords st vs _ _ (wordText_wordChars st v) (wordToken_wordText st v)
  have line := lexFrom_punct false [] _ '\x7b' .lbrace [] _ rfl rfl rfl inside
  cases vs <;> exact line

/-! ### Tokens -/

@[simp] theorem asmByte_toNat (b : Byte) : asmByte b.toNat = some b := by simp [asmByte, b.isLt]

@[simp] theorem asmWord_toNat (v : Word) : asmWord v.toNat = some v := by simp [asmWord, v.isLt]

@[simp] theorem asmBytes_toNat (bs : List Byte) : asmBytes (bs.map BitVec.toNat) = some bs := by
  induction bs with
  | nil => rfl
  | cons b bs ih => simp [asmBytes, ih]

@[simp] theorem asmWords_toNat (vs : List Word) : asmWords (vs.map BitVec.toNat) = some vs := by
  induction vs with
  | nil => rfl
  | cons v vs ih => simp [asmWords, ih]

/-- The numbers of a bare byte list, up to what is no number. -/
theorem takeNums_bytes (bs : List Byte) (ts : List AsmToken) (h : takeNums ts = ([], ts)) :
    takeNums (bs.map (fun b => AsmToken.num b.toNat) ++ ts) = (bs.map BitVec.toNat, ts) := by
  induction bs with
  | nil => exact h
  | cons b bs ih => simp [takeNums, ih]

/-- The numbers of a value list after its first. -/
theorem takeCommaNums_words (vs : List Word) :
    takeCommaNums (vs.flatMap (fun u => [AsmToken.comma, .num u.toNat]) ++ [.rbrace])
      = (vs.map BitVec.toNat, [.rbrace]) := by
  induction vs with
  | nil => rfl
  | cons v vs ih => simp [takeCommaNums, ih]

/-- A bracketed byte list is read back. -/
@[simp] theorem asmBracketed_printBytes (bs : List Byte) : asmBracketed (printBytes bs) = some bs := by
  simp [printBytes, asmBracketed, takeNums_bytes bs [.rbracket] rfl]

/-- A braced value list of at least one value is read back. -/
theorem asmBraced_printValues (vs : List Word) (h : vs ≠ []) : asmBraced (printValues vs) = some vs := by
  cases vs with
  | nil => exact absurd rfl h
  | cons v vs =>
    have hw := asmWords_toNat (v :: vs)
    simp only [List.map_cons] at hw
    simp [printValues, asmBraced, takeCommaNums_words, hw]

end Sys2Proof.Machine
end

