-- ==== Sys2Proof/Laws/Crc.lean ====
section
/-! SUPPORT. The shift step is linear over exclusive-or and loses nothing, so the byte update and the fold lose nothing
either. -/

namespace Sys2Proof.Machine

/-- With bit 0 clear the step is the shift. -/
theorem crcStep_even (x : Word) (h : x[0] = false) : crcStep x = x >>> 1 := by
  have : x.extractLsb' 0 1 ≠ 1#1 := by
    intro e
    have := congrArg (fun x => x.getLsbD 0) e
    simp [h] at this
  simp [crcStep, this]

/-- With bit 0 set the step is the shift and the XOR with the polynomial. -/
theorem crcStep_odd (x : Word) (h : x[0] = true) : crcStep x = (x >>> 1) ^^^ 0xA001#16 := by
  have : x.extractLsb' 0 1 = 1#1 := by
    apply BitVec.eq_of_getLsbD_eq
    intro i hi
    have : i = 0 := by omega
    subst this; simp [h]
  simp [crcStep, this]

/-- The step is linear. -/
theorem crcStep_xor (a b : Word) : crcStep (a ^^^ b) = crcStep a ^^^ crcStep b := by
  cases ha : a[0] <;> cases hb : b[0]
  · rw [crcStep_even a ha, crcStep_even b hb, crcStep_even _ (by simp [ha, hb]), BitVec.ushiftRight_xor_distrib]
  · rw [crcStep_even a ha, crcStep_odd b hb, crcStep_odd _ (by simp [ha, hb]), BitVec.ushiftRight_xor_distrib,
      BitVec.xor_assoc]
  · rw [crcStep_odd a ha, crcStep_even b hb, crcStep_odd _ (by simp [ha, hb]), BitVec.ushiftRight_xor_distrib,
      BitVec.xor_assoc, BitVec.xor_comm (b >>> 1), ← BitVec.xor_assoc]
  · rw [crcStep_odd a ha, crcStep_odd b hb, crcStep_even _ (by simp [ha, hb]), BitVec.ushiftRight_xor_distrib]
    apply BitVec.eq_of_getLsbD_eq
    intro i hi
    simp only [BitVec.getLsbD_xor]
    cases (a >>> 1).getLsbD i <;> cases (b >>> 1).getLsbD i <;> cases (40961#16).getLsbD i <;> rfl

/-- The step keeps zero. -/
theorem crcStep_zero : crcStep 0#16 = 0#16 := by decide

/-- Only zero steps to zero: the polynomial has bit 15 set. -/
theorem crcStep_eq_zero (x : Word) (h : crcStep x = 0#16) : x = 0#16 := by
  cases h0 : x[0]
  · rw [crcStep_even x h0] at h
    apply BitVec.eq_of_getLsbD_eq
    intro i hi
    cases i with
    | zero => simpa using h0
    | succ n =>
      have := congrArg (fun x => x.getLsbD n) h
      simpa [Nat.add_comm] using this
  · rw [crcStep_odd x h0] at h
    have := congrArg (fun x => x.getLsbD 15) h
    simp at this

/-- Any number of steps is linear. -/
theorem crcShift_xor (n : Nat) (a b : Word) : crcShift n (a ^^^ b) = crcShift n a ^^^ crcShift n b := by
  induction n generalizing a b with
  | zero => rfl
  | succ n ih => simp [crcShift, crcStep_xor, ih]

/-- Only zero shifts to zero. -/
theorem crcShift_eq_zero (n : Nat) (c : Word) (h : crcShift n c = 0#16) : c = 0#16 := by
  induction n generalizing c with
  | zero => exact h
  | succ n ih => exact crcStep_eq_zero c (ih _ h)

/-- Words whose exclusive-or is zero are equal. -/
theorem xor_eq_zero (a b : Word) (h : a ^^^ b = 0#16) : a = b := by
  have := congrArg (fun x => x ^^^ b) h
  simpa [BitVec.xor_assoc] using this

/-- Any number of steps is injective. -/
theorem crcShift_inj (n : Nat) (a b : Word) (h : crcShift n a = crcShift n b) : a = b :=
  xor_eq_zero a b (crcShift_eq_zero n _ (by rw [crcShift_xor, h, BitVec.xor_self]))

/-- The byte update is injective in the accumulator. -/
theorem crcUpdate_inj (b : Byte) (c c' : Word) (h : crcUpdate c b = crcUpdate c' b) : c = c' := by
  have := crcShift_inj 8 _ _ h
  have := congrArg (fun x => x ^^^ b.setWidth 16) this
  simpa [BitVec.xor_assoc] using this

/-- The byte update is injective in the byte. -/
theorem crcUpdate_byte_inj (c : Word) (b b' : Byte) (h : crcUpdate c b = crcUpdate c b') : b = b' := by
  have := crcShift_inj 8 _ _ h
  have := congrArg (fun x => c ^^^ x) this
  simp at this
  have := congrArg (fun x => x.setWidth 8) this
  simpa using this

/-- The fold is injective in the accumulator. -/
theorem crcFold_inj (B : List Byte) (c c' : Word) (h : crcFold c B = crcFold c' B) : c = c' := by
  induction B generalizing c c' with
  | nil => exact h
  | cons b B ih => exact crcUpdate_inj b c c' (ih _ _ h)

/-- Eight steps bring a high byte down. -/
theorem crcShift8_high : ∀ h : Byte, crcShift 8 (h.setWidth 16 <<< 8) = h.setWidth 16 := by decide +kernel

/-- The fold over a concatenation. -/
theorem crcFold_append (c : Word) (A C : List Byte) : crcFold c (A ++ C) = crcFold (crcFold c A) C := by
  simp [crcFold]

end Sys2Proof.Machine
end

