-- ==== Sys2Proof/Laws/Decode.lean ====
section
/-! SUPPORT. The fields of a command word, taken apart and put together. -/

namespace Sys2Proof

/-- `OP` of a word made of its fields. -/
theorem mkWord_op (b : Byte) (r o : BitVec 4) : wordOp (mkWord b r o) = o := by
  apply BitVec.eq_of_getLsbD_eq
  intro i hi
  have : i < 8 := by omega
  have : i < 16 := by omega
  simp [wordOp, mkWord, *]

/-- `RSV` of a word made of its fields. -/
theorem mkWord_rsv (b : Byte) (r o : BitVec 4) : wordRsv (mkWord b r o) = r := by
  apply BitVec.eq_of_getLsbD_eq
  intro i hi
  have : 4 + i < 8 := by omega
  have : 4 + i < 16 := by omega
  have : ¬ (4 + i < 4) := by omega
  simp [wordRsv, mkWord, *]

/-- `ARG` of a word made of its fields. -/
theorem mkWord_arg (b : Byte) (r o : BitVec 4) : wordArg (mkWord b r o) = b := by
  apply BitVec.eq_of_getLsbD_eq
  intro i hi
  have : 8 + i < 16 := by omega
  have : ¬ (8 + i < 4) := by omega
  have : ¬ (8 + i - 4 < 4) := by omega
  have h1 : r.getLsbD (8 + i - 4) = false := BitVec.getLsbD_of_ge _ _ (by omega)
  have h2 : o.getLsbD (8 + i) = false := BitVec.getLsbD_of_ge _ _ (by omega)
  simp [wordArg, mkWord, *]

/-- A word is made of its fields. -/
theorem mkWord_fields (w : Word) : mkWord (wordArg w) (wordRsv w) (wordOp w) = w := by
  apply BitVec.eq_of_getLsbD_eq
  intro i hi
  simp [wordArg, wordRsv, wordOp, mkWord, hi]
  by_cases h : i < 4
  · have : i < 8 := by omega
    simp [h, this]
  · by_cases h2 : i < 8
    · have : i - 4 < 4 := by omega
      have e : 4 + (i - 4) = i := by omega
      simp [h, h2, this, e, hi]
    · have : i - 8 < 8 := by omega
      have h3 : ¬ (i - 4 < 4) := by omega
      have e : 8 + (i - 8) = i := by omega
      simp [h, h2, this, h3, e, hi]

/-- A byte that names a function code is its code. -/
theorem ofByte_eq_code (b : Byte) (f : FunctionCode) (h : FunctionCode.ofByte b = some f) : b = f.code := by
  unfold FunctionCode.ofByte at h; split at h
  · cases h; assumption
  · split at h
    · cases h; assumption
    · split at h
      · cases h; assumption
      · cases h

end Sys2Proof
end

