-- ==== Sys2Proof/Laws/State.lean ====
section
/-! SUPPORT. Every field after every update of the state, and the shape of the event list. -/

namespace Sys2Proof.Machine

variable (s : State) (v : Word) (o : Output) (r : RefuseReason) (i : Issue)

@[simp] theorem setCrc_crc : (s.setCrc v).crc = v := rfl
@[simp] theorem setCrc_refused : (s.setCrc v).refused = s.refused := rfl
@[simp] theorem setCrc_rxMaxBytes : (s.setCrc v).rxMaxBytes = s.rxMaxBytes := rfl
@[simp] theorem setCrc_pending : (s.setCrc v).pending = s.pending := rfl
@[simp] theorem setCrc_out : (s.setCrc v).out = s.out := rfl

@[simp] theorem answer_crc : (s.answer o).crc = s.crc := rfl
@[simp] theorem answer_refused : (s.answer o).refused = s.refused := rfl
@[simp] theorem answer_rxMaxBytes : (s.answer o).rxMaxBytes = s.rxMaxBytes := rfl
@[simp] theorem answer_pending : (s.answer o).pending = s.pending := rfl
@[simp] theorem answer_out : (s.answer o).out = o := rfl

@[simp] theorem refuse_crc : (s.refuse r).crc = s.crc := rfl
@[simp] theorem refuse_refused : (s.refuse r).refused = true := rfl
@[simp] theorem refuse_rxMaxBytes : (s.refuse r).rxMaxBytes = s.rxMaxBytes := rfl
@[simp] theorem refuse_pending : (s.refuse r).pending = s.pending := rfl
@[simp] theorem refuse_out : (s.refuse r).out = .refused r := rfl

@[simp] theorem idle_crc : s.idle.crc = s.crc := rfl
@[simp] theorem idle_refused : s.idle.refused = s.refused := rfl
@[simp] theorem idle_rxMaxBytes : s.idle.rxMaxBytes = s.rxMaxBytes := rfl
@[simp] theorem idle_pending : s.idle.pending = s.pending := rfl
@[simp] theorem idle_out : s.idle.out = .none := rfl

@[simp] theorem resetBlock_crc : s.resetBlock.crc = crcInitial := rfl
@[simp] theorem resetBlock_refused : s.resetBlock.refused = false := rfl
@[simp] theorem resetBlock_rxMaxBytes : s.resetBlock.rxMaxBytes = s.rxMaxBytes := rfl
@[simp] theorem resetBlock_pending : s.resetBlock.pending = s.pending := rfl
@[simp] theorem resetBlock_out : s.resetBlock.out = .none := rfl

@[simp] theorem withIssue_crc : (s.withIssue i).crc = s.crc := rfl
@[simp] theorem withIssue_refused : (s.withIssue i).refused = s.refused := rfl
@[simp] theorem withIssue_rxMaxBytes : (s.withIssue i).rxMaxBytes = s.rxMaxBytes := rfl
@[simp] theorem withIssue_pending : (s.withIssue i).pending = .issue i :: s.pending := rfl
@[simp] theorem withIssue_out : (s.withIssue i).out = s.out := rfl

/-- There is no event exactly where nothing is pending. -/
theorem takeEvent_eq_none : s.takeEvent = none ↔ s.pending = [] := by
  unfold State.takeEvent
  cases s.pending <;> simp

/-- The event taken is the head of the list, and the rest of the state is untouched. -/
theorem takeEvent_eq_some (e : HostEvent) (t : State) :
    s.takeEvent = some (e, t) ↔ ∃ q, s.pending = e :: q ∧ t = { s with pending := q } := by
  unfold State.takeEvent
  cases s.pending with
  | nil => simp
  | cons e' q => simp [eq_comm]

end Sys2Proof.Machine
end

