-- ==== Sys2Proof/Laws/Ops.lean ====
section
/-! SUPPORT. Once per shared operation of the meanings, everything it can answer. -/

namespace Sys2Proof.Machine

/-- A command that writes `crc` answers one state. -/
theorem writeCrc_next (v : Word) (s : State) : writeCrc v s = .next { s with crc := v, out := .ack } := rfl

/-- A frame put out answers one state. -/
theorem emitFrame_next (B : List Byte) (s : State) : emitFrame B s = .next { s with out := .frameOut B } := rfl

/-- The count that ENCODE 0x10 accepts is the well-formed one. -/
theorem wmrAccepts_eq (values : List Word) : wmrAccepts values = wmrCountOk values := rfl

/-- ENCODE 0x10 answers a frame, or refuses by the count. -/
theorem encodeWmr_next {slave : Byte} {addr : Word} {values : List Word} {s t : State}
    (h : encodeWmr slave addr values s = .next t) :
    (wmrAccepts values = true ∧ t = s.answer (.frameOut (reqWmr slave addr values)))
    ∨ (wmrAccepts values = false ∧ t = s.refuse .wmrValueCount) := by
  unfold encodeWmr emitFrame at h
  split at h <;> cases h
  · exact .inl ⟨‹_›, rfl⟩
  · exact .inr ⟨by simpa using ‹¬ wmrAccepts values = true›, rfl⟩

/-- ENCODE 0x10 always answers a next state. -/
theorem encodeWmr_completes (slave : Byte) (addr : Word) (values : List Word) (s : State) :
    ∃ t, encodeWmr slave addr values s = .next t := by
  unfold encodeWmr emitFrame
  split <;> exact ⟨_, rfl⟩

/-- DECODE answers a result, or refuses by the length. -/
theorem decodeCommand_next {F : FunctionCode} {S : Byte} {B : List Byte} {s t : State}
    (h : decodeCommand F S B s = .next t) :
    (rxFits s.rxMaxBytes B.length = true ∧ t = s.answer (.result (decodeFrame B S F)))
    ∨ (rxFits s.rxMaxBytes B.length = false ∧ t = s.refuse .rxTooLong) := by
  unfold decodeCommand at h
  split at h <;> cases h
  · exact .inl ⟨‹_›, rfl⟩
  · exact .inr ⟨by simpa using ‹¬ rxFits s.rxMaxBytes B.length = true›, rfl⟩

/-- DECODE always answers a next state. -/
theorem decodeCommand_completes (F : FunctionCode) (S : Byte) (B : List Byte) (s : State) :
    ∃ t, decodeCommand F S B s = .next t := by
  unfold decodeCommand
  split <;> exact ⟨_, rfl⟩

/-- The length fits where there is no bound or the bound is not passed. -/
theorem rxFits_iff (rx : Option Nat) (L : Nat) : rxFits rx L = true ↔ ∀ m, rx = some m → L ≤ m := by
  cases rx <;> simp [rxFits]

/-- The length does not fit where a bound is passed. -/
theorem rxFits_eq_false (rx : Option Nat) (L : Nat) : rxFits rx L = false ↔ ∃ m, rx = some m ∧ m < L := by
  cases rx <;> simp [rxFits]

/-- The count of ENCODE 0x10, in numbers. -/
theorem wmrCountOk_iff (values : List Word) :
    wmrCountOk values = true ↔ 1 ≤ values.length ∧ values.length ≤ 127 := by
  unfold wmrCountOk Config.wmrMinValues Config.wmrMaxValues
  simp

/-- A count of ENCODE 0x10 that is refused, in numbers. -/
theorem wmrCountOk_eq_false (values : List Word) :
    wmrCountOk values = false ↔ values.length = 0 ∨ 127 < values.length := by
  rw [← Bool.not_eq_true, wmrCountOk_iff]
  omega

end Sys2Proof.Machine
end

