-- ==== Sys2Proof/Laws/PerInstr.lean ====
section
/-! SUPPORT. Per instruction: the bits the encoder writes are those of the instruction's row of spec/opcode_table.json. -/

namespace Sys2Proof.Laws.EncodesRow

/-- The encoded bits, under the row's mask, are the row's match (R62, R76). -/
def Statement (i : Instr) : Prop := (encode i).tableBits &&& (tableRow i).2 = (tableRow i).1

theorem crcInit : Statement (.crcInit) := by
  simp [Statement, encode, Issue.tableBits, tableRow, encodeWord, mkWord]
theorem crcUpdate (b : Byte) : Statement (.crcUpdate b) := by
  revert b
  unfold Statement
  decide
theorem crcRead : Statement (.crcRead) := by
  simp [Statement, encode, Issue.tableBits, tableRow, encodeWord, mkWord]
theorem encRhr (slave : Byte) (addr count : Word) : Statement (.encRhr slave addr count) := by
  simp [Statement, encode, Issue.tableBits, tableRow, encodeWord, mkWord, FunctionCode.code]
theorem encWsr (slave : Byte) (addr : Word) (value : List Word) : Statement (.encWsr slave addr value) := by
  simp [Statement, encode, Issue.tableBits, tableRow, encodeWord, mkWord, FunctionCode.code]
theorem encWmr (slave : Byte) (addr : Word) (values : List Word) : Statement (.encWmr slave addr values) := by
  simp [Statement, encode, Issue.tableBits, tableRow, encodeWord, mkWord, FunctionCode.code]
theorem decRhr (slave : Byte) (frame : List Byte) : Statement (.decRhr slave frame) := by
  simp [Statement, encode, Issue.tableBits, tableRow, encodeWord, mkWord, FunctionCode.code]
theorem decWsr (slave : Byte) (frame : List Byte) : Statement (.decWsr slave frame) := by
  simp [Statement, encode, Issue.tableBits, tableRow, encodeWord, mkWord, FunctionCode.code]
theorem decWmr (slave : Byte) (frame : List Byte) : Statement (.decWmr slave frame) := by
  simp [Statement, encode, Issue.tableBits, tableRow, encodeWord, mkWord, FunctionCode.code]
theorem frameReqRhr (slave : Byte) (addr count : Word) : Statement (.frameReqRhr slave addr count) := by
  simp [Statement, encode, Issue.tableBits, tableRow]
theorem frameReqWsr (slave : Byte) (addr value : Word) : Statement (.frameReqWsr slave addr value) := by
  simp [Statement, encode, Issue.tableBits, tableRow]
theorem frameReqWmr (slave : Byte) (addr : Word) (values : List Word) : Statement (.frameReqWmr slave addr values) := by
  simp [Statement, encode, Issue.tableBits, tableRow]
theorem frameRspRhr (expected slave : Byte) (regs : List Word) : Statement (.frameRspRhr expected slave regs) := by
  simp [Statement, encode, Issue.tableBits, tableRow]
theorem frameRspWsr (expected slave : Byte) (addr value : Word) : Statement (.frameRspWsr expected slave addr value) := by
  simp [Statement, encode, Issue.tableBits, tableRow]
theorem frameRspWmr (expected slave : Byte) (addr count : Word) : Statement (.frameRspWmr expected slave addr count) := by
  simp [Statement, encode, Issue.tableBits, tableRow]
theorem frameExcRhr (expected slave code : Byte) : Statement (.frameExcRhr expected slave code) := by
  simp [Statement, encode, Issue.tableBits, tableRow]
theorem frameExcWsr (expected slave code : Byte) : Statement (.frameExcWsr expected slave code) := by
  simp [Statement, encode, Issue.tableBits, tableRow]
theorem frameExcWmr (expected slave code : Byte) : Statement (.frameExcWmr expected slave code) := by
  simp [Statement, encode, Issue.tableBits, tableRow]

end Sys2Proof.Laws.EncodesRow
end

