-- ==== Sys2Proof/Tests/Slice0.lean ====
section
/-! SUPPORT. The model's own tests. Expected values come from spec/95_test_vectors.md and the rules' examples; each test
names its source. The last part shows, for every statement with hypotheses, inputs that meet them. -/

namespace Sys2Proof.Tests

open Sys2Proof Sys2Proof.Machine

-- One theorem after the other: a hundred small kernel evaluations at once would each ask for a thread of its own.
set_option Elab.async false

/-! ### Helpers -/

/-- A small state: the accumulator given, everything else as at reset. -/
def at0 (c : Word) : State := { State.reset with crc := c }

/-- A state whose RX_MAX_BYTES is `m`. -/
def bounded (m : Nat) : State := { State.reset with rxMaxBytes := some m }

/-- A state in which the host does `e` next. -/
def about (e : HostEvent) : State := { State.reset with pending := [e] }

/-- The next state, if there is one. -/
def stateOf : Answer → Option State
  | .next t => some t
  | .fault _ => none
  | .refused _ => none

/-- The output of the next state. -/
def outOf (a : Answer) : Option Output := (stateOf a).map State.out

/-- `crc` and `refused` after. -/
def marksOf (a : Answer) : Option (Word × Bool) := (stateOf a).map fun t => (t.crc, t.refused)

/-- Ports with every number zero but those given. -/
def ports (slave : Byte) (addr : Word) (values : List Word) : Ports :=
  { slave := slave, addr := addr, count := 0x0001#16, value := values, values := values, frame := [0x32#8, 0x03#8] }

/-- Frame fields for the decode tests. -/
def fields (dir : Direction) : FrameFields :=
  { direction := dir, expected := 0x31#8, slave := 0x32#8, addr := 0x0006#16, word := 0x00FF#16,
    values := [0x1234#16], code := 0x02#8 }

/-! ### WellFormed refuses an ill-formed term, one for each check (R64, R121, R72) -/

theorem test_wf_wsr_two_values : (Instr.encWsr 0x32#8 0x0006#16 [0x0001#16, 0x0002#16]).wellFormed = false := by decide
theorem test_wf_wsr_no_value : (Instr.encWsr 0x32#8 0x0006#16 []).wellFormed = false := by decide
theorem test_wf_wmr_no_value : (Instr.encWmr 0x32#8 0x0006#16 []).wellFormed = false := by decide
theorem test_wf_wmr_128_values : (Instr.encWmr 0x32#8 0x0006#16 (List.replicate 128 0x0001#16)).wellFormed = false := by
  decide +kernel
theorem test_wf_wmr_127_values : (Instr.encWmr 0x32#8 0x0006#16 (List.replicate 127 0x0001#16)).wellFormed = true := by
  decide +kernel
theorem test_wf_req_wmr_no_value : (Instr.frameReqWmr 0x32#8 0x0006#16 []).wellFormed = false := by decide
theorem test_wf_rsp_128_registers :
    (Instr.frameRspRhr 0x32#8 0x32#8 (List.replicate 128 0x0001#16)).wellFormed = false := by decide +kernel

/-! ### Decoding: words written out bit by bit from R61 and R62 (ARG, RSV, OP), function bytes from R76 -/

theorem test_dec_crcInit : decode (.command 0b0000000000000001#16 (ports 1 2 [3])) = .ok .crcInit := by rfl
theorem test_dec_crcUpdate : decode (.command 0b0011001000000010#16 (ports 1 2 [3])) = .ok (.crcUpdate 0x32#8) := by rfl
theorem test_dec_crcRead : decode (.command 0b0000000000000011#16 (ports 1 2 [3])) = .ok .crcRead := by rfl
theorem test_dec_encRhr : decode (.command 0b0000001100000100#16 (ports 1 2 [3])) = .ok (.encRhr 1 2 1) := by rfl
theorem test_dec_encWsr : decode (.command 0b0000011000000100#16 (ports 1 2 [3])) = .ok (.encWsr 1 2 [3]) := by rfl
theorem test_dec_encWmr : decode (.command 0b0001000000000100#16 (ports 1 2 [3])) = .ok (.encWmr 1 2 [3]) := by rfl
theorem test_dec_decRhr :
    decode (.command 0b0000001100000101#16 (ports 1 2 [3])) = .ok (.decRhr 1 [0x32#8, 0x03#8]) := by rfl
theorem test_dec_decWsr :
    decode (.command 0b0000011000000101#16 (ports 1 2 [3])) = .ok (.decWsr 1 [0x32#8, 0x03#8]) := by rfl
theorem test_dec_decWmr :
    decode (.command 0b0001000000000101#16 (ports 1 2 [3])) = .ok (.decWmr 1 [0x32#8, 0x03#8]) := by rfl
theorem test_dec_frameReqRhr :
    decode (.frame 0b00000011#8 (fields .request)) = .ok (.frameReqRhr 0x32#8 0x0006#16 0x00FF#16) := by rfl
theorem test_dec_frameReqWsr :
    decode (.frame 0b00000110#8 (fields .request)) = .ok (.frameReqWsr 0x32#8 0x0006#16 0x00FF#16) := by rfl
theorem test_dec_frameReqWmr :
    decode (.frame 0b00010000#8 (fields .request)) = .ok (.frameReqWmr 0x32#8 0x0006#16 [0x1234#16]) := by rfl
theorem test_dec_frameRspRhr :
    decode (.frame 0b00000011#8 (fields .response)) = .ok (.frameRspRhr 0x31#8 0x32#8 [0x1234#16]) := by rfl
theorem test_dec_frameRspWsr :
    decode (.frame 0b00000110#8 (fields .response)) = .ok (.frameRspWsr 0x31#8 0x32#8 0x0006#16 0x00FF#16) := by rfl
theorem test_dec_frameRspWmr :
    decode (.frame 0b00010000#8 (fields .response)) = .ok (.frameRspWmr 0x31#8 0x32#8 0x0006#16 0x00FF#16) := by rfl
theorem test_dec_frameExcRhr :
    decode (.frame 0b10000011#8 (fields .request)) = .ok (.frameExcRhr 0x31#8 0x32#8 0x02#8) := by rfl
theorem test_dec_frameExcWsr :
    decode (.frame 0b10000110#8 (fields .response)) = .ok (.frameExcWsr 0x31#8 0x32#8 0x02#8) := by rfl
theorem test_dec_frameExcWmr :
    decode (.frame 0b10010000#8 (fields .response)) = .ok (.frameExcWmr 0x31#8 0x32#8 0x02#8) := by rfl

/-- V-CMD-1 to V-CMD-9: the reserved words. -/
theorem test_reserved_words :
    [0x0000#16, 0x0006#16, 0x000F#16, 0x0011#16, 0x0101#16, 0x0103#16, 0x0204#16, 0x8305#16, 0x0405#16].map decodeWord
      = List.replicate 9 none := by decide

/-- A function byte that matches no row (R76). -/
theorem test_unknown_function_byte : decode (.frame 0x04#8 (fields .response)) = .error .reservedWord := by rfl

/-! ### The generator -/

/-- R105's example: `crc` = 0x1234, then `crc.init`. -/
theorem test_crcInit : marksOf (exec .crcInit (at0 0x1234#16)) = some (0xFFFF#16, false) := by decide
/-- V-CRC-3 and R106's example. -/
theorem test_crcUpdate : marksOf (exec (.crcUpdate 0x32#8) (at0 0xFFFF#16)) = some (0x953E#16, false) := by
  decide +kernel
/-- V-CRC-12, last row. -/
theorem test_crcUpdate_1234 : crcUpdate 0x1234#16 0x56#8 = 0xE993#16 := by decide +kernel
/-- R107's example: the value and the wire bytes, low byte first. -/
theorem test_crcRead : outOf (exec .crcRead (at0 0xC981#16)) = some (.crcValue 0xC981#16 [0x81#8, 0xC9#8]) := by decide
/-- V-CRC-3: the eight shifts of one update. -/
theorem test_crcShifts :
    (List.range 9).map (fun n => crcShift n 0xFFCD#16)
      = [0xFFCD#16, 0xDFE7#16, 0xCFF2#16, 0x67F9#16, 0x93FD#16, 0xE9FF#16, 0xD4FE#16, 0x6A7F#16, 0x953E#16] := by
  decide +kernel
/-- V-CRC-5: the check value. -/
theorem test_crcCheckValue :
    crc16 [0x31#8, 0x32#8, 0x33#8, 0x34#8, 0x35#8, 0x36#8, 0x37#8, 0x38#8, 0x39#8] = 0x4B37#16 := by decide +kernel
/-- V-CRC-10 and V-CRC-11. -/
theorem test_crc_zeros_and_ones :
    crc16 (List.replicate 8 0x00#8) = 0x0B40#16 ∧ crc16 (List.replicate 8 0xFF#8) = 0x8F01#16 := by decide +kernel

/-! ### ENCODE -/

/-- V-ENC-1. -/
theorem test_encRhr : outOf (exec (.encRhr 0x32#8 0x0000#16 0x0001#16) (at0 0x953E#16)) = some (.frameOut
    [0x32#8, 0x03#8, 0x00#8, 0x00#8, 0x00#8, 0x01#8, 0x81#8, 0xC9#8]) := by decide +kernel
/-- V-ENC-7: extreme fields, nothing checked. -/
theorem test_encRhr_extreme : outOf (exec (.encRhr 0x00#8 0xFFFF#16 0xFFFF#16) State.reset) = some (.frameOut
    [0x00#8, 0x03#8, 0xFF#8, 0xFF#8, 0xFF#8, 0xFF#8, 0x45#8, 0x8F#8]) := by decide +kernel
/-- V-ENC-2. -/
theorem test_encWsr : outOf (exec (.encWsr 0x32#8 0x0006#16 [0x00FF#16]) State.reset) = some (.frameOut
    [0x32#8, 0x06#8, 0x00#8, 0x06#8, 0x00#8, 0xFF#8, 0x2C#8, 0x48#8]) := by decide +kernel
/-- V-CMD-12: two values are refused, `crc` unchanged. -/
theorem test_encWsr_refused :
    stateOf (exec (.encWsr 0x32#8 0x0006#16 [0x00FF#16, 0x0001#16]) (at0 0x953E#16))
      = some { at0 0x953E#16 with refused := true, out := .refused .wsrValueCount } := by decide
/-- V-ENC-5. -/
theorem test_encWmr : outOf (exec (.encWmr 0x32#8 0x0006#16 [0x0080#16, 0x0001#16]) State.reset) = some (.frameOut
    [0x32#8, 0x10#8, 0x00#8, 0x06#8, 0x00#8, 0x02#8, 0x04#8, 0x00#8, 0x80#8, 0x00#8, 0x01#8, 0x43#8, 0xE9#8]) := by
  decide +kernel
/-- V-CMD-11: 128 values are refused. -/
theorem test_encWmr_refused :
    outOf (exec (.encWmr 0x32#8 0x0006#16 (List.replicate 128 0x1234#16)) State.reset)
      = some (.refused .wmrValueCount) := by decide +kernel

/-! ### DECODE -/

/-- V-DEC-2. -/
theorem test_decRhr : outOf (exec (.decRhr 0x32#8
    [0x32#8, 0x03#8, 0x04#8, 0x12#8, 0x34#8, 0xAB#8, 0xCD#8, 0x03#8, 0x23#8]) (at0 0x953E#16))
      = some (.result (.ok (.readHolding 0x32#8 [0x1234#16, 0xABCD#16]))) := by decide +kernel
/-- V-DEC-16: an exception code above 2 is not caught by step 1b. -/
theorem test_decRhr_exception : outOf (exec (.decRhr 0x32#8 [0x32#8, 0x83#8, 0x04#8, 0xB0#8, 0xFC#8]) State.reset)
    = some (.result (.err (.deviceException 0x04#8))) := by decide +kernel
/-- V-DEC-24. -/
theorem test_decWsr : outOf (exec (.decWsr 0x32#8
    [0x32#8, 0x06#8, 0x00#8, 0x06#8, 0x00#8, 0xFF#8, 0x2C#8, 0x48#8]) State.reset)
      = some (.result (.ok (.writeSingle 0x32#8 0x0006#16 0x00FF#16))) := by decide +kernel
/-- V-DEC-27: 4 bytes with a valid CRC fail at step 5w. -/
theorem test_decWsr_short : failingStep [0x32#8, 0x06#8, 0x94#8, 0xD2#8] 0x32#8 .wsr = some .s5w := by decide +kernel
/-- V-DEC-30. -/
theorem test_decWmr : outOf (exec (.decWmr 0x32#8
    [0x32#8, 0x10#8, 0x00#8, 0x06#8, 0x00#8, 0x02#8, 0xA4#8, 0x0A#8]) State.reset)
      = some (.result (.ok (.writeMultiple 0x32#8 0x0006#16 0x0002#16))) := by decide +kernel
/-- V-DEC-31: the echo of the whole request. -/
theorem test_decWmr_echo : outOf (exec (.decWmr 0x32#8
    [0x32#8, 0x10#8, 0x00#8, 0x06#8, 0x00#8, 0x02#8, 0x04#8, 0x00#8, 0x80#8, 0x00#8, 0x01#8, 0x43#8, 0xE9#8]) State.reset)
      = some (.result (.err .malformedFrame)) := by decide +kernel
/-- V-CMD-13: L = RX_MAX_BYTES + 1 is refused, L = RX_MAX_BYTES is not. -/
theorem test_rxTooLong :
    outOf (exec (.decRhr 0x32#8 [0x32#8, 0x03#8, 0x00#8, 0xD0#8, 0xFF#8]) (bounded 4)) = some (.refused .rxTooLong)
    ∧ outOf (exec (.decRhr 0x32#8 [0x32#8, 0x03#8, 0x00#8, 0xD0#8, 0xFF#8]) (bounded 5))
      = some (.result (.ok (.readHolding 0x32#8 []))) := by decide +kernel

/-- V-DEC-5, 6, 7, 9, 11, 12, 13, 18, 22, 23: the failing step of each. -/
theorem test_failingSteps :
    failingStep [0x32#8, 0x03#8, 0x01#8, 0x55#8, 0x3F#8, 0x33#8] 0x32#8 .rhr = some .s5o
    ∧ failingStep [0x32#8, 0x03#8, 0x02#8, 0x00#8, 0xFF#8, 0xFC#8] 0x32#8 .rhr = some .s5r
    ∧ failingStep [0x32#8, 0x03#8, 0x04#8, 0x12#8, 0x34#8] 0x32#8 .rhr = some .s1b
    ∧ failingStep [0x33#8, 0x03#8, 0x02#8, 0x00#8, 0x7F#8, 0x00#8, 0x00#8] 0x32#8 .rhr = some .s2
    ∧ failingStep [0x32#8, 0x03#8, 0x02#8, 0x12#8, 0x34#8, 0x37#8, 0xB1#8] 0x32#8 .rhr = some .s4
    ∧ failingStep [0x32#8, 0x06#8, 0x02#8, 0x00#8, 0x7F#8, 0xFD#8, 0x6C#8] 0x32#8 .rhr = some .s3
    ∧ failingStep [0x32#8, 0x86#8, 0x02#8, 0x33#8, 0xAE#8] 0x32#8 .rhr = some .s3
    ∧ failingStep [0x32#8, 0x83#8, 0x02#8, 0x00#8, 0xFE#8, 0x14#8] 0x32#8 .rhr = some .s5e
    ∧ failingStep [0x32#8, 0x03#8, 0x00#8, 0x00#8] 0x32#8 .rhr = some .s4
    ∧ failingStep [0x32#8, 0x83#8, 0x55#8, 0x71#8] 0x32#8 .rhr = some .s5e := by decide +kernel

/-! ### The table's frame formats -/

/-- V-ENC-9 as the frame of its row. -/
theorem test_frameReqRhr : outOf (exec (.frameReqRhr 0x01#8 0x0000#16 0x0001#16) State.reset) = some (.frameOut
    [0x01#8, 0x03#8, 0x00#8, 0x00#8, 0x00#8, 0x01#8, 0x84#8, 0x0A#8]) := by decide +kernel
/-- V-ENC-8. -/
theorem test_frameReqWsr : outOf (exec (.frameReqWsr 0xFF#8 0xFFFF#16 0x0000#16) State.reset) = some (.frameOut
    [0xFF#8, 0x06#8, 0xFF#8, 0xFF#8, 0x00#8, 0x00#8, 0x9C#8, 0x30#8]) := by decide +kernel
/-- V-ENC-6. -/
theorem test_frameReqWmr : outOf (exec (.frameReqWmr 0x32#8 0x0007#16 [0x0004#16]) State.reset) = some (.frameOut
    [0x32#8, 0x10#8, 0x00#8, 0x07#8, 0x00#8, 0x01#8, 0x02#8, 0x00#8, 0x04#8, 0xE6#8, 0xD5#8]) := by decide +kernel
/-- V-DEC-3: the frame's bytes, and its result. -/
theorem test_frameRspRhr :
    rspRhr 0x32#8 [0x007F#16] = [0x32#8, 0x03#8, 0x02#8, 0x00#8, 0x7F#8, 0xFD#8, 0xA0#8]
    ∧ outOf (exec (.frameRspRhr 0x32#8 0x32#8 [0x007F#16]) State.reset)
      = some (.result (.ok (.readHolding 0x32#8 [0x007F#16]))) := by decide +kernel
/-- V-DEC-29: slave 0x00. -/
theorem test_frameRspWsr : outOf (exec (.frameRspWsr 0x00#8 0x00#8 0x0006#16 0x0001#16) State.reset)
    = some (.result (.ok (.writeSingle 0x00#8 0x0006#16 0x0001#16))) := by decide +kernel
/-- V-DEC-8's kind of error: the request went to another slave. -/
theorem test_frameRspWmr : outOf (exec (.frameRspWmr 0x31#8 0x32#8 0x0006#16 0x0002#16) State.reset)
    = some (.result (.err .addressMismatch)) := by decide +kernel
/-- V-DEC-15: the frame's bytes, and its result. -/
theorem test_frameExcRhr :
    excFrame .rhr 0x32#8 0x02#8 = [0x32#8, 0x83#8, 0x02#8, 0x30#8, 0xFE#8]
    ∧ outOf (exec (.frameExcRhr 0x32#8 0x32#8 0x02#8) State.reset)
      = some (.result (.err (.deviceException 0x02#8))) := by decide +kernel
/-- V-DEC-28. -/
theorem test_frameExcWsr :
    excFrame .wsr 0x32#8 0x03#8 = [0x32#8, 0x86#8, 0x03#8, 0xF2#8, 0x6E#8]
    ∧ outOf (exec (.frameExcWsr 0x32#8 0x32#8 0x03#8) State.reset)
      = some (.result (.err (.deviceException 0x03#8))) := by decide +kernel
/-- V-DEC-32. -/
theorem test_frameExcWmr :
    excFrame .wmr 0x32#8 0x01#8 = [0x32#8, 0x90#8, 0x01#8, 0x7D#8, 0xCF#8]
    ∧ outOf (exec (.frameExcWmr 0x32#8 0x32#8 0x01#8) State.reset)
      = some (.result (.err (.deviceException 0x01#8))) := by decide +kernel

/-! ### Steps -/

/-- P4, row 10: the reserved word 0x0006 sets the mark and leaves `crc`. -/
theorem test_step_reserved :
    stateOf (step { at0 0x0000#16 with pending := [.issue (.command 0x0006#16 Ports.zero)] })
      = some { at0 0x0000#16 with refused := true, out := .refused .reservedWord } := by decide
/-- P4, row 11: the next command is accepted, and the mark stays. -/
theorem test_step_after_refusal :
    stateOf (step { at0 0x0000#16 with refused := true, pending := [.issue (.command 0x0003#16 Ports.zero)] })
      = some { at0 0x0000#16 with refused := true, out := .crcValue 0x0000#16 [0x00#8, 0x00#8] } := by decide
/-- A reset (R210, R212) clears the mark and restores 0xFFFF. -/
theorem test_step_reset :
    stateOf (step { at0 0x953E#16 with refused := true, pending := [.reset] }) = some State.reset := by decide
/-- Nothing pending (R202). -/
theorem test_step_idle : stateOf (step State.reset) = some State.reset := by decide
/-- The host's question: the row's word decodes and is the next step's instruction. -/
theorem test_withFetchWord :
    decodeTableWord 16 0x3202 = some (.crcUpdate 0x32#8) ∧ decodeTableWord 16 0x0006 = none
    ∧ decodeTableWord 8 0x86 = some (.frameExcWsr 0x00#8 0x00#8 0x00#8)
    ∧ stateOf (step (State.reset.withFetchWord 16 0x3202)) = some { at0 0x953E#16 with out := .ack } := by decide +kernel

/-! ### The notation (R67, R68) -/

/-- R123's example. -/
theorem test_asm_encRhr : assembleLine "enc.rhr 0x32, 0x0000, 0x0001".toList
    = some [.encRhr 0x32#8 0x0000#16 0x0001#16] := by decide +kernel
/-- R150's example. -/
theorem test_asm_decRhr : assembleLine "dec.rhr 0x32, [32 03 02 12 34 B1 37]".toList
    = some [.decRhr 0x32#8 [0x32#8, 0x03#8, 0x02#8, 0x12#8, 0x34#8, 0xB1#8, 0x37#8]] := by decide +kernel
/-- R107's example of `crc.bytes`. -/
theorem test_asm_crcBytes : assembleLine "crc.bytes 0x32 0x03".toList
    = some [.crcInit, .crcUpdate 0x32#8, .crcUpdate 0x03#8] := by decide +kernel

/-- R125's example, in braces. -/
theorem test_asm_braces : braceText .hexUpper [0x0080#16, 0x0001#16]
    = '\x7b' :: "0x0080, 0x0001".toList ++ ['\x7d'] := by decide +kernel
/-- R67: the same command in decimal, written by hand (0x32 is 50, 0x00FF is 255). -/
theorem test_asm_decimal : assembleLine "enc.wsr 50, 6, 255".toList
    = some [.encWsr 0x32#8 0x0006#16 [0x00FF#16]] := by decide +kernel

/-! ### Every statement with hypotheses has inputs that meet them -/

/-- V-DEC-1's frame. -/
def goodRead : List Byte := [0x32#8, 0x03#8, 0x02#8, 0x12#8, 0x34#8, 0xB1#8, 0x37#8]
/-- V-DEC-24's frame. -/
def goodWrite : List Byte := [0x32#8, 0x06#8, 0x00#8, 0x06#8, 0x00#8, 0xFF#8, 0x2C#8, 0x48#8]
/-- V-DEC-30's frame. -/
def goodMultiple : List Byte := [0x32#8, 0x10#8, 0x00#8, 0x06#8, 0x00#8, 0x02#8, 0xA4#8, 0x0A#8]
/-- V-DEC-16's frame. -/
def goodException : List Byte := [0x32#8, 0x83#8, 0x04#8, 0xB0#8, 0xFC#8]

theorem witness_BetweenCommandsResetOrHold :
    (about .reset).pending = .reset :: [] ∧ State.reset.pending = [] := ⟨rfl, rfl⟩
theorem witness_StepRunsTheDecodedInstruction :
    (about (.issue (.command 0x0001#16 Ports.zero))).pending = .issue (.command 0x0001#16 Ports.zero) :: []
    ∧ decode (.command 0x0001#16 Ports.zero) = .ok .crcInit := ⟨rfl, rfl⟩
theorem witness_StepStopsExactlyOnOverlap :
    (about (.overlap (.command 1 Ports.zero) (.command 3 Ports.zero))).pending
      = .overlap (.command 1 Ports.zero) (.command 3 Ports.zero) :: []
    ∧ step (about (.overlap (.command 1 Ports.zero) (.command 3 Ports.zero))) = .fault .overlappingCommand := ⟨rfl, rfl⟩
theorem witness_ReservedWordsAreRefused :
    (about (.issue (.command 0x0006#16 Ports.zero))).pending = .issue (.command 0x0006#16 Ports.zero) :: []
    ∧ decodeWord 0x0006#16 = none ∧ decodeWord 0x0011#16 = none ∧ decodeWord 0x0101#16 = none
    ∧ decodeWord 0x0405#16 = none := by decide
theorem witness_DecodeOfEncodeIsIdentity :
    decode (.command 0x3202#16 (ports 1 2 [3])) = .ok (.crcUpdate 0x32#8) := rfl
theorem witness_CommandsReadTheListedOperands :
    ([] : List Word).length ≠ 1 ∧ [0x0001#16, 0x0002#16].length ≠ 1
    ∧ ([] : List Word).length < 1 ∧ 127 < (List.replicate 128 0x0001#16).length
    ∧ (bounded 6).rxMaxBytes = some 6 ∧ 6 < goodRead.length := by decide +kernel
theorem witness_RefusalsAreExactlyTheFour :
    (∃ t, step (about (.issue (.command 0x0006#16 Ports.zero))) = .next t ∧ t.out = .refused .reservedWord)
    ∧ (∃ t, step (about (.issue (.command 0x0604#16 Ports.zero))) = .next t ∧ t.out = .refused .wsrValueCount)
    ∧ (∃ t, step (about (.issue (.command 0x1004#16 Ports.zero))) = .next t ∧ t.out = .refused .wmrValueCount)
    ∧ (∃ t, step { bounded 1 with pending := [.issue (.command 0x0305#16 (ports 1 2 [3]))] } = .next t
        ∧ t.out = .refused .rxTooLong)
    ∧ ∃ t, step (about (.issue (.command 0x0001#16 Ports.zero))) = .next t ∧ ∀ r, t.out ≠ .refused r :=
  ⟨⟨_, rfl, rfl⟩, ⟨_, rfl, rfl⟩, ⟨_, rfl, rfl⟩, ⟨_, rfl, rfl⟩, ⟨_, rfl, fun _ h => by cases h⟩⟩
theorem witness_UpdatesContinueFromWhatCrcHolds :
    ∀ i ∈ [Instr.encRhr 0x32#8 0x0000#16 0x0001#16, Instr.decRhr 0x32#8 goodRead, Instr.crcRead], writesCrc i = false := by
  decide
theorem witness_CrcResidueIsZero :
    2 ≤ [0xFF#8, 0xFF#8].length ∧ crcFieldMatches [0xFF#8, 0xFF#8] ∧ ¬ crcFieldMatches [0xFF#8, 0xFE#8] := by
  decide +kernel
theorem witness_ResidueProgramChecksTheFrame : 2 ≤ goodRead.length ∧ crcFieldMatches goodRead := by decide +kernel
theorem witness_SingleBitErrorIsDetected :
    2 ≤ goodRead.length ∧ crcFieldMatches goodRead ∧ 6 < goodRead.length ∧ 7 < 8 := by decide +kernel
theorem witness_EncodeAndDecodeLeaveCrcAlone : usesCrc (.encRhr 0x32#8 0x0000#16 0x0001#16) = false := rfl
theorem witness_EncodeWriteMultipleRequest :
    1 ≤ [0x0004#16].length ∧ (List.replicate 127 0x1234#16).length ≤ 127
    ∧ 1 ≤ (List.replicate 127 0x1234#16).length ∧ (List.replicate 127 0x1234#16)[126]? = some 0x1234#16
    ∧ ([] : List Word).length = 0 ∧ 127 < (List.replicate 128 0x1234#16).length := by decide +kernel
theorem witness_IllFormedRequestsProduceNoFrame :
    (∃ t, step (about (.issue (.command 0x0604#16 (ports 1 2 [3])))) = .next t ∧ ∃ B, t.out = .frameOut B)
    ∧ ∃ t, step (about (.issue (.command 0x0204#16 (ports 1 2 [3])))) = .next t ∧ (0x0204#16).toNat % 16 = 4
      ∧ ∀ B, t.out ≠ .frameOut B :=
  ⟨⟨_, rfl, _, rfl⟩, ⟨_, rfl, rfl, fun _ h => by cases h⟩⟩
theorem witness_FrameLengths :
    wmrCountOk (List.replicate 127 0x1234#16) = true ∧ rspCountOk (List.replicate 127 0x1234#16) = true := by
  decide +kernel
theorem witness_LengthStepIsFirst :
    [0x32#8, 0x03#8, 0x00#8].length < 4
    ∧ [0x32#8, 0x03#8, 0x04#8, 0x12#8, 0x34#8].getD 1 0#8 ≠ 0x83#8
    ∧ [0x32#8, 0x03#8, 0x04#8, 0x12#8, 0x34#8].length < 3 + ([0x32#8, 0x03#8, 0x04#8, 0x12#8, 0x34#8].getD 2 0#8).toNat := by
  decide
theorem witness_FunctionStepRejectsOtherCodes :
    lengthPasses [0x32#8, 0x86#8, 0x02#8, 0x33#8, 0xAE#8] .rhr
    ∧ [0x32#8, 0x86#8, 0x02#8, 0x33#8, 0xAE#8].getD 0 0#8 = 0x32#8
    ∧ [0x32#8, 0x86#8, 0x02#8, 0x33#8, 0xAE#8].getD 1 0#8 ≠ FunctionCode.rhr.code
    ∧ [0x32#8, 0x86#8, 0x02#8, 0x33#8, 0xAE#8].getD 1 0#8 ≠ FunctionCode.rhr.code ||| 0x80#8
    ∧ lengthPasses [0x32#8, 0x83#8, 0x02#8, 0x00#8, 0x00#8] .rhr
    ∧ [0x32#8, 0x83#8, 0x02#8, 0x00#8, 0x00#8].getD 0 0#8 = 0x32#8
    ∧ [0x32#8, 0x83#8, 0x02#8, 0x00#8, 0x00#8].getD 1 0#8 = FunctionCode.rhr.code ||| 0x80#8
    ∧ ¬ crcFieldMatches [0x32#8, 0x83#8, 0x02#8, 0x00#8, 0x00#8] := by decide +kernel
theorem witness_StructureStepDecidesAcceptance :
    (framePasses goodException 0x32#8 .rhr ∧ goodException.getD 1 0#8 = FunctionCode.rhr.code ||| 0x80#8)
    ∧ (framePasses goodRead 0x32#8 .rhr ∧ goodRead.getD 1 0#8 = FunctionCode.rhr.code)
    ∧ (framePasses goodWrite 0x32#8 .wsr ∧ goodWrite.getD 1 0#8 = FunctionCode.wsr.code)
    ∧ framePasses [0x32#8, 0x03#8, 0x01#8, 0x55#8, 0x3F#8, 0x33#8] 0x32#8 .rhr
    ∧ framePasses [0x32#8, 0x06#8, 0x94#8, 0xD2#8] 0x32#8 .wsr := by decide +kernel
theorem witness_AcceptedReadCarriesItsRegisters :
    decodeFrame goodRead 0x32#8 .rhr = .ok (.readHolding 0x32#8 [0x1234#16]) ∧ 0 < [0x1234#16].length := by decide +kernel
theorem witness_AcceptedWritesCarryTheirFields :
    decodeFrame goodWrite 0x32#8 .wsr = .ok (.writeSingle 0x32#8 0x0006#16 0x00FF#16)
    ∧ decodeFrame goodMultiple 0x32#8 .wmr = .ok (.writeMultiple 0x32#8 0x0006#16 0x0002#16) := by decide +kernel
theorem witness_LengthArithmeticDoesNotWrap :
    decodeFrame [0x32#8, 0x03#8, 0x00#8, 0xD0#8, 0xFF#8] 0x32#8 .rhr = .ok (.readHolding 0x32#8 [])
    ∧ [0x32#8, 0x06#8, 0x94#8, 0xD2#8].length = 4
    ∧ shortRead 0#8 [0x32#8, 0x03#8, 0x04#8, 0x12#8, 0x34#8] .rhr = true := by decide +kernel
/-- Step 1b where a sum modulo 256 would differ: 3 + 0xFF is 258 and 3 + 0xFD is 256, not 2 and 0; the bound itself passes;
an exception frame is not asked. -/
theorem witness_LengthArithmeticDoesNotWrap_1b :
    shortRead 0#8 [0x32#8, 0x03#8, 0xFF#8, 0x12#8, 0x34#8] .rhr = true
    ∧ shortRead 0#8 [0x32#8, 0x03#8, 0xFD#8, 0x12#8, 0x34#8] .rhr = true
    ∧ shortRead 0#8 [0x32#8, 0x03#8, 0x02#8, 0x12#8, 0x34#8] .rhr = false
    ∧ shortRead 0#8 [0x32#8, 0x83#8, 0xFF#8, 0x12#8, 0x34#8] .rhr = false := by decide +kernel
theorem witness_DecodeReadCommand :
    (∀ m, (bounded 7).rxMaxBytes = some m → goodRead.length ≤ m)
    ∧ [0x32#8, 0x03#8, 0x02#8, 0x00#8, 0xFF#8, 0xFC#8].length
        = 4 + ([0x32#8, 0x03#8, 0x02#8, 0x00#8, 0xFF#8, 0xFC#8].getD 2 0#8).toNat
    ∧ framePasses [0x32#8, 0x03#8, 0x02#8, 0x00#8, 0xFF#8, 0xFC#8] 0x32#8 .rhr
    ∧ [0x32#8, 0x03#8, 0x02#8, 0x00#8, 0xFF#8, 0xFC#8].getD 1 0#8 = 0x03#8
    ∧ decodeFrame goodRead 0x32#8 .rhr = .ok (.readHolding 0x32#8 [0x1234#16]) :=
  ⟨fun m h => by cases h; decide, by decide +kernel⟩
theorem witness_DecodeWriteSingleCommand :
    (∀ m, (bounded 8).rxMaxBytes = some m → goodWrite.length ≤ m)
    ∧ 4 ≤ [0x32#8, 0x06#8, 0x94#8, 0xD2#8].length ∧ [0x32#8, 0x06#8, 0x94#8, 0xD2#8].length ≤ 7
    ∧ framePasses [0x32#8, 0x06#8, 0x94#8, 0xD2#8] 0x32#8 .wsr
    ∧ [0x32#8, 0x06#8, 0x94#8, 0xD2#8].getD 1 0#8 = 0x06#8 :=
  ⟨fun m h => by cases h; decide, by decide +kernel⟩
theorem witness_DecodeWriteMultipleCommand :
    (∀ m, (bounded 8).rxMaxBytes = some m → goodMultiple.length ≤ m) ∧ wmrCountOk [0x0004#16] = true :=
  ⟨fun m h => by cases h; decide, rfl⟩
theorem witness_StatusNumbersTheResult :
    resultStatus (.err (.deviceException 0x02#8)) = resultStatus (.err (.deviceException 0x02#8))
    ∧ resultStatus (.err (.deviceException 0x02#8)) = resultStatus (.err (.deviceException 0x03#8))
    ∧ resultExcCode (.err (.deviceException 0x02#8)) ≠ resultExcCode (.err (.deviceException 0x03#8)) := by decide
theorem witness_DecodeErrorsLeaveNoTrace :
    ∃ t, exec (.decRhr 0x32#8 []) (at0 0x953E#16) = .next t ∧ t.out = .result (.err .malformedFrame) := ⟨_, rfl, rfl⟩
theorem witness_RequestFramesAreWhatEncodeOutputs :
    1 ≤ [0x0004#16].length ∧ (List.replicate 127 0x1234#16).length ≤ 127 := by decide +kernel
theorem witness_ResponseFramesAreDecodedToTheirFields :
    (List.replicate 127 0x1234#16).length ≤ 127
    ∧ (∀ m, (bounded 259).rxMaxBytes = some m → 5 + 2 * (List.replicate 127 0x1234#16).length ≤ m)
    ∧ ∀ m, (bounded 8).rxMaxBytes = some m → 8 ≤ m :=
  ⟨by decide +kernel, fun m h => by cases h; decide +kernel, fun m h => by cases h; decide⟩
theorem witness_TableFramesPastTheLimits :
    (bounded 6).rxMaxBytes = some 6 ∧ 6 < 5 + 2 * [0x1234#16].length ∧ (bounded 7).rxMaxBytes = some 7 ∧ 7 < 8
    ∧ (bounded 4).rxMaxBytes = some 4 ∧ 4 < 5 ∧ 127 < (List.replicate 128 0x1234#16).length
    ∧ ∀ m, State.reset.rxMaxBytes = some m → 5 + 2 * (List.replicate 128 0x1234#16).length ≤ m :=
  ⟨rfl, by decide, rfl, by decide, rfl, by decide, by decide +kernel, fun m h => by cases h⟩
theorem witness_ExceptionFramesReportTheirCode : ∀ m, (bounded 5).rxMaxBytes = some m → 5 ≤ m :=
  fun m h => by cases h; decide
theorem witness_EveryInstructionCompletesWithinItsFrame : writesCrc .crcRead = false := rfl
theorem witness_RefusedMarkIsSticky :
    (∃ t, step { State.reset with refused := true } = .next t ∧ t.refused = true)
    ∧ (∃ t, step (about (.issue (.command 0x0006#16 Ports.zero))) = .next t ∧ t.refused = true)
    ∧ ∃ t, step { about .reset with refused := true } = .next t ∧ t.refused = false :=
  ⟨⟨_, rfl, rfl⟩, ⟨_, rfl, rfl⟩, ⟨_, rfl, rfl⟩⟩
theorem witness_RefusedMarkIsSticky_refusal :
    ∃ t, step (about (.issue (.command 0x0006#16 Ports.zero))) = .next t ∧ t.out = .refused .reservedWord :=
  ⟨_, rfl, rfl⟩
theorem witness_CleanEndMeansNothingWasRefused :
    ∃ t, execSeq ([.crcInit] ++ .encWsr 0x32#8 0x0006#16 [0x00FF#16] :: [.crcRead]) State.reset = .next t ∧ Clean t :=
  ⟨_, rfl, rfl⟩
theorem witness_OutputsDependOnOperandsAlone :
    usesCrc (.decRhr 0x32#8 goodRead) = false ∧ (at0 0x1234#16).rxMaxBytes = (at0 0x953E#16).rxMaxBytes := ⟨rfl, rfl⟩
theorem witness_AllButUpdateAreIdempotent :
    (∀ b, Instr.crcInit ≠ .crcUpdate b) ∧ ∃ t, exec .crcInit (at0 0x1234#16) = .next t :=
  ⟨fun _ h => (by cases h), ⟨_, rfl⟩⟩
theorem witness_StepKeepsInvariant :
    Inv (about (.issue (.command 0x0006#16 Ports.zero)))
    ∧ ∃ t, step (about (.issue (.command 0x0006#16 Ports.zero))) = .next t := ⟨⟨rfl, rfl, rfl⟩, ⟨_, rfl⟩⟩
theorem witness_NormalResponseRoundTrips :
    127 ≤ 127 ∧ (List.replicate 254 0x55#8).length = 2 * 127 ∧ 1 ≤ [0x0080#16].length ∧ [0x0080#16].length ≤ 127 := by
  decide +kernel
theorem witness_SingleBitTamperingIsCaught :
    isAnswered (decodeFrame goodRead 0x32#8 .rhr) = true ∧ isAnswered (decodeFrame goodException 0x32#8 .rhr) = true
    ∧ isAnswered (decodeFrame goodWrite 0x32#8 .wsr) = true
    ∧ 6 < goodRead.length ∧ goodRead.getD 1 0#8 = 0x03#8 ∧ goodException.getD 1 0#8 = 0x83#8
    ∧ 2 < (goodException.getD 2 0#8).toNat
    ∧ (goodRead.getD 2 0#8).toNat + 2 < ((flipBit goodRead 2 2).getD 2 0#8).toNat
    ∧ ¬ (goodRead.getD 2 0#8).toNat + 2 < ((flipBit goodRead 2 1).getD 2 0#8).toNat := by decide +kernel
theorem witness_AssemblyLineRoundTrips :
    (Instr.encWmr 0xFF#8 0xFFFF#16 [0x0080#16, 0x0000#16]).wellFormed = true
    ∧ (encode (Instr.encWmr 0xFF#8 0xFFFF#16 [0x0080#16, 0x0000#16])).isFrame = false
    ∧ (lineText .decimal (.encWmr 0xFF#8 0xFFFF#16 [0x0080#16, 0x0000#16])).isSome = true
    ∧ (printInstr (.encWmr 0xFF#8 0xFFFF#16 [0x0080#16, 0x0000#16])).isSome = true := by decide +kernel
/-- Both ends of the ranges of numbers, and bytes that begin like a mnemonic. -/
theorem witness_AssemblyLineRoundTrips_ends :
    (lineText .decimal (.encRhr 0xFF#8 0xFFFF#16 0x0000#16)).bind assembleLine
      = some [.encRhr 0xFF#8 0xFFFF#16 0x0000#16]
    ∧ (lineText .hexLower (.decRhr 0x00#8 [0xCC#8, 0xE0#8, 0xDD#8])).bind assembleLine
      = some [.decRhr 0x00#8 [0xCC#8, 0xE0#8, 0xDD#8]]
    ∧ (lineText .hexUpper (.decWmr 0x00#8 [])).bind assembleLine = some [.decWmr 0x00#8 []]
    ∧ assembleLine (crcBytesText .hexUpper []) = some (pseudoCrcBytes []) := by decide +kernel

end Sys2Proof.Tests
end

section
/-! SUPPORT. What one step can do, by the head of the host's list, and what one instruction can do to the state. -/

namespace Sys2Proof.Machine

/-! ### A step, by the host's next event -/

section
variable {s t : State} {q : List HostEvent}

/-- Where the host does nothing, the step idles (R202). -/
theorem step_of_pending_nil (h : s.pending = []) : step s = .next s.idle := by
  unfold step
  rw [(takeEvent_eq_none s).mpr h]

/-- The event at the head decides the step; the rest of the state is handed on with the event taken. -/
theorem takeEvent_of_pending_cons {e : HostEvent} (h : s.pending = e :: q) :
    s.takeEvent = some (e, { s with pending := q }) :=
  (takeEvent_eq_some s e _).mpr ⟨q, h, rfl⟩

/-- An issue at the head is run (R10, R48). -/
theorem step_of_pending_issue {j : Issue} (h : s.pending = .issue j :: q) :
    step s = runIssue j { s with pending := q } := by
  unfold step
  rw [takeEvent_of_pending_cons h]

/-- A reset at the head resets the block (R212). -/
theorem step_of_pending_reset (h : s.pending = .reset :: q) :
    step s = .next (State.resetBlock { s with pending := q }) := by
  unfold step
  rw [takeEvent_of_pending_cons h]

/-- An overlap at the head stops the machine (R215). -/
theorem step_of_pending_overlap {a b : Issue} (h : s.pending = .overlap a b :: q) :
    step s = .fault .overlappingCommand := by
  unfold step
  rw [takeEvent_of_pending_cons h]

/-- A step that answers a next state idled, reset the block or ran what the host issued. -/
theorem step_next (h : step s = .next t) :
    (s.pending = [] ∧ t = s.idle)
    ∨ (∃ q, s.pending = .reset :: q ∧ t = State.resetBlock { s with pending := q })
    ∨ ∃ j q, s.pending = .issue j :: q ∧ runIssue j { s with pending := q } = .next t := by
  cases hp : s.pending with
  | nil =>
    rw [step_of_pending_nil hp] at h
    cases h
    exact .inl ⟨rfl, rfl⟩
  | cons e q =>
    cases e with
    | issue j => exact .inr (.inr ⟨j, q, rfl, step_of_pending_issue hp ▸ h⟩)
    | reset =>
      rw [step_of_pending_reset hp] at h
      cases h
      exact .inr (.inl ⟨q, rfl, rfl⟩)
    | overlap a b =>
      rw [step_of_pending_overlap hp] at h
      cases h

end

/-! ### An instruction, by what it does to the state -/

/-- `t` is `s` after a command that leaves `crc` alone: an output that is no refusal, or a refusal (R122, R190). -/
def AnswersOrRefuses (s t : State) : Prop :=
  (∃ o, (∀ r, o ≠ .refused r) ∧ t = s.answer o) ∨ ∃ r, t = s.refuse r

section
variable {s t : State}

theorem emitFrame_answersOrRefuses {B : List Byte} (h : emitFrame B s = .next t) : AnswersOrRefuses s t := by
  cases h
  exact .inl ⟨.frameOut _, nofun, rfl⟩

theorem encodeWmr_answersOrRefuses {slave : Byte} {addr : Word} {values : List Word}
    (h : encodeWmr slave addr values s = .next t) : AnswersOrRefuses s t := by
  obtain ⟨-, ht⟩ | ⟨-, ht⟩ := encodeWmr_next h
  · exact .inl ⟨.frameOut _, nofun, ht⟩
  · exact .inr ⟨_, ht⟩

theorem decodeCommand_answersOrRefuses {F : FunctionCode} {S : Byte} {B : List Byte}
    (h : decodeCommand F S B s = .next t) : AnswersOrRefuses s t := by
  obtain ⟨-, ht⟩ | ⟨-, ht⟩ := decodeCommand_next h
  · exact .inl ⟨.result _, nofun, ht⟩
  · exact .inr ⟨_, ht⟩

theorem execEncWsr_answersOrRefuses {slave : Byte} {addr : Word} {value : List Word}
    (h : execEncWsr slave addr value s = .next t) : AnswersOrRefuses s t := by
  unfold execEncWsr at h
  split at h
  · exact emitFrame_answersOrRefuses h
  · cases h
    exact .inr ⟨_, rfl⟩

/-- An instruction writes `crc` and acknowledges, where it is one of the two that write it, or else leaves `crc` alone
and answers or refuses. -/
theorem exec_next {i : Instr} (h : exec i s = .next t) :
    (writesCrc i = true ∧ ∃ v, t = (s.setCrc v).answer .ack) ∨ (writesCrc i = false ∧ AnswersOrRefuses s t) := by
  cases i with
  | crcInit | crcUpdate =>
    cases h
    exact .inl ⟨rfl, _, rfl⟩
  | crcRead =>
    cases h
    exact .inr ⟨rfl, .inl ⟨.crcValue _ _, nofun, rfl⟩⟩
  | encRhr | frameReqRhr | frameReqWsr => exact .inr ⟨rfl, emitFrame_answersOrRefuses h⟩
  | encWsr => exact .inr ⟨rfl, execEncWsr_answersOrRefuses h⟩
  | encWmr | frameReqWmr => exact .inr ⟨rfl, encodeWmr_answersOrRefuses h⟩
  | decRhr | decWsr | decWmr | frameRspRhr | frameRspWsr | frameRspWmr | frameExcRhr | frameExcWsr | frameExcWmr =>
    exact .inr ⟨rfl, decodeCommand_answersOrRefuses h⟩

end

end Sys2Proof.Machine
end

section
/-! PROOFS. The state (10_state.md): the refused mark, and the output nothing reads. -/

namespace Sys2Proof.Machine

/-! ### The refused mark -/

section
variable {s t : State}

/-- After an instruction the mark is set where it was set before or the instruction was refused (R23). -/
theorem exec_refused_iff {i : Instr} (h : exec i s = .next t) :
    t.refused = true ↔ s.refused = true ∨ ∃ r, t.out = .refused r := by
  obtain ⟨-, v, rfl⟩ | ⟨-, ⟨o, ho, rfl⟩ | ⟨r, rfl⟩⟩ := exec_next h
  · simp
  · simp [ho]
  · simp

/-- The same of what the host issues: what matches no row is a refusal too (R63, R190). -/
theorem runIssue_refused_iff {j : Issue} (h : runIssue j s = .next t) :
    t.refused = true ↔ s.refused = true ∨ ∃ r, t.out = .refused r := by
  unfold runIssue at h
  split at h
  · exact exec_refused_iff h
  · cases h
    simp

end

/-- Settles O51: of what a step can do, only a refusal sets the mark and only a reset clears it. -/
theorem refusedMarkIsSticky : Obligations.RefusedMarkIsSticky := by
  intro s t h
  obtain ⟨hp, rfl⟩ | ⟨q, hp, rfl⟩ | ⟨j, q, hp, hrun⟩ := step_next h
  · simp [hp]
  · simp [hp]
  · have mark : t.refused = true ↔ s.refused = true ∨ ∃ r, t.out = .refused r :=
      runIssue_refused_iff (s := { s with pending := q }) hrun
    refine ⟨fun hs => .inl (mark.mpr (.inl hs)), fun hs ht => ?_, fun hr => mark.mpr (.inr hr), fun hreset => ?_⟩
    · exact (mark.mp ht).resolve_left (by simp [hs])
    · simp [hp] at hreset

/-! ### The output field -/

/-- No instruction reads the output: every arm overwrites the field, and no guard looks at it (R22). -/
theorem exec_with_out (i : Instr) (s : State) (o : Output) : exec i { s with out := o } = exec i s := by
  cases i <;> rfl

/-- Nor does a command the host issues, refused ones included. -/
theorem runIssue_with_out (j : Issue) (s : State) (o : Output) : runIssue j { s with out := o } = runIssue j s := by
  unfold runIssue
  split
  · exact exec_with_out _ s o
  · rfl

/-- Settles O53: by the host's next event, which the output field does not change. -/
theorem noStepReadsAnEarlierOutput : Obligations.NoStepReadsAnEarlierOutput := by
  rintro ⟨crc, refused, rx, pending, out⟩ o
  match pending with
  | [] => rfl
  | .reset :: q => rfl
  | .overlap a b :: q => rfl
  | .issue j :: q => exact runIssue_with_out j ⟨crc, refused, rx, q, out⟩ o

end Sys2Proof.Machine
end

section
/-! SUPPORT. A command word, by its fields and by the operation it selects. -/

namespace Sys2Proof

/-! ### The fields of a word -/

/-- A word is made of three fields exactly where they are its own (R61). -/
theorem eq_mkWord_iff {w : Word} {a : Byte} {r o : BitVec 4} :
    w = mkWord a r o ↔ wordArg w = a ∧ wordRsv w = r ∧ wordOp w = o := by
  constructor
  · rintro rfl
    exact ⟨mkWord_arg a r o, mkWord_rsv a r o, mkWord_op a r o⟩
  · rintro ⟨rfl, rfl, rfl⟩
    exact (mkWord_fields w).symm

theorem wordOp_eq_iff (w : Word) (o : BitVec 4) : wordOp w = o ↔ w.toNat % 16 = o.toNat := by
  simp [← BitVec.toNat_inj, wordOp]

theorem wordRsv_eq_iff (w : Word) (r : BitVec 4) : wordRsv w = r ↔ w.toNat / 16 % 16 = r.toNat := by
  simp [← BitVec.toNat_inj, wordRsv, Nat.shiftRight_eq_div_pow]

theorem wordArg_eq_iff (w : Word) (a : Byte) : wordArg w = a ↔ w.toNat / 256 = a.toNat := by
  have : w.toNat / 256 < 256 := by omega
  simp [← BitVec.toNat_inj, wordArg, Nat.shiftRight_eq_div_pow, Nat.mod_eq_of_lt this]

/-- `ARG` is what is left of a word shifted down by a byte (R61). -/
theorem wordArg_eq_shift (w : Word) : wordArg w = (w >>> 8).setWidth 8 := by
  ext i hi
  simp [wordArg]

/-- The low byte of a word, in numbers. -/
theorem and_lowByte_eq_iff (w b : Word) : w &&& 0x00FF#16 = b ↔ w.toNat % 256 = b.toNat := by
  have : w.toNat &&& 255 = w.toNat % 256 := Nat.and_two_pow_sub_one_eq_mod w.toNat 8
  simp [← BitVec.toNat_inj, this]

/-! ### The operation of a word -/

/-- The word of an operation selects that operation (R62). -/
theorem decodeWord_encodeWord (op : Op) : decodeWord (encodeWord op) = some op := by
  cases op with
  | crcInit | crcRead => rfl
  | crcUpdate b => simp [decodeWord, encodeWord, mkWord_op, mkWord_rsv, mkWord_arg]
  | enc f | dec f => cases f <;> rfl

/-- A word that selects an operation is that operation's word. -/
theorem eq_encodeWord_of_decodeWord {w : Word} {op : Op} (h : decodeWord w = some op) : w = encodeWord op := by
  unfold decodeWord at h
  split_ifs at h with hr ho ha ho ho ha ho ho
  · cases h
    exact eq_mkWord_iff.mpr ⟨ha, hr, ho⟩
  · cases h
    exact eq_mkWord_iff.mpr ⟨rfl, hr, ho⟩
  · cases h
    exact eq_mkWord_iff.mpr ⟨ha, hr, ho⟩
  · obtain ⟨f, hf, rfl⟩ := Option.map_eq_some_iff.mp h
    exact eq_mkWord_iff.mpr ⟨ofByte_eq_code _ f hf, hr, ho⟩
  · obtain ⟨f, hf, rfl⟩ := Option.map_eq_some_iff.mp h
    exact eq_mkWord_iff.mpr ⟨ofByte_eq_code _ f hf, hr, ho⟩

/-- The decoder and the encoder of command words are inverse to each other (R62). -/
theorem decodeWord_eq_some_iff {w : Word} {op : Op} : decodeWord w = some op ↔ w = encodeWord op :=
  ⟨eq_encodeWord_of_decodeWord, fun h => h ▸ decodeWord_encodeWord op⟩

/-- The word of CRC_UPDATE, written as R62's row: the data byte above 0x02. -/
theorem encodeWord_crcUpdate (b : Byte) : encodeWord (.crcUpdate b) = (b.setWidth 16 <<< 8) ||| 0x0002#16 := by
  simp [encodeWord, mkWord]

/-- A word is that of an update, with its own high byte, exactly where its low byte says so (R62). -/
theorem eq_encodeWord_crcUpdate_iff (w : Word) :
    w = encodeWord (.crcUpdate ((w >>> 8).setWidth 8)) ↔ w &&& 0x00FF#16 = 0x0002#16 := by
  rw [← wordArg_eq_shift, encodeWord, eq_mkWord_iff, wordRsv_eq_iff, wordOp_eq_iff, and_lowByte_eq_iff]
  simp
  omega

/-- A byte names no function code exactly where it is none of the three (R2). -/
theorem ofByte_eq_none_iff (b : Byte) :
    FunctionCode.ofByte b = none ↔ b ≠ 0x03#8 ∧ b ≠ 0x06#8 ∧ b ≠ 0x10#8 := by
  unfold FunctionCode.ofByte
  split_ifs <;> simp [*]

/-- The words that select nothing, in numbers (R63): `OP`, `RSV` and `ARG` decide each branch of the table. -/
theorem decodeWord_eq_none_iff (w : Word) : decodeWord w = none ↔
    (w.toNat % 16 = 0 ∨ 6 ≤ w.toNat % 16)
    ∨ w.toNat / 16 % 16 ≠ 0
    ∨ ((w.toNat % 16 = 1 ∨ w.toNat % 16 = 3) ∧ w.toNat / 256 ≠ 0)
    ∨ ((w.toNat % 16 = 4 ∨ w.toNat % 16 = 5)
        ∧ w.toNat / 256 ≠ 0x03 ∧ w.toNat / 256 ≠ 0x06 ∧ w.toNat / 256 ≠ 0x10) := by
  unfold decodeWord
  simp only [wordOp_eq_iff, wordRsv_eq_iff, wordArg_eq_iff, BitVec.toNat_ofNat]
  split_ifs <;> simp [ofByte_eq_none_iff, wordArg_eq_iff] <;> omega

/-! ### What a command decodes to -/

/-- A command whose word selects an operation is that operation on its ports (R64). -/
theorem decode_command_of_some {w : Word} {op : Op} (h : decodeWord w = some op) (p : Ports) :
    decode (.command w p) = .ok (withOperands p op) := by
  simp [decode, h]

/-- A command whose word matches no row is a reserved word (R63). -/
theorem decode_command_of_none {w : Word} (h : decodeWord w = none) (p : Ports) :
    decode (.command w p) = .error .reservedWord := by
  simp [decode, h]

/-- An operation's own word decodes to that operation on the ports. -/
theorem decode_command_encodeWord (op : Op) (p : Ports) :
    decode (.command (encodeWord op) p) = .ok (withOperands p op) :=
  decode_command_of_some (decodeWord_encodeWord op) p

end Sys2Proof
end

section
/-! SUPPORT. ENCODE and DECODE where a constraint on the operands fails or holds (R64), and the layout of the frames. -/

namespace Sys2Proof.Machine

/-! ### The constraints on the operands -/

/-- ENCODE 0x06 with any number of values but one is refused (R64, D17). -/
theorem execEncWsr_of_length_ne_one {slave : Byte} {addr : Word} {value : List Word} {s : State}
    (h : value.length ≠ 1) : execEncWsr slave addr value s = .next (s.refuse .wsrValueCount) := by
  match value with
  | [] | _ :: _ :: _ => rfl
  | [_] => exact absurd rfl h

/-- ENCODE 0x10 with a count that is not accepted is refused (R64, D16). -/
theorem encodeWmr_of_rejected {slave : Byte} {addr : Word} {values : List Word} {s : State}
    (h : values.length = 0 ∨ 127 < values.length) :
    encodeWmr slave addr values s = .next (s.refuse .wmrValueCount) := by
  simp [encodeWmr, wmrAccepts_eq, (wmrCountOk_eq_false values).mpr h]

/-- ENCODE 0x10 with a count that is accepted puts out the request (R125). -/
theorem encodeWmr_of_accepted {slave : Byte} {addr : Word} {values : List Word} {s : State}
    (h : 1 ≤ values.length ∧ values.length ≤ 127) :
    encodeWmr slave addr values s = .next { s with out := .frameOut (reqWmr slave addr values) } := by
  simp [encodeWmr, wmrAccepts_eq, (wmrCountOk_iff values).mpr h, emitFrame_next]

/-- DECODE of a frame past the bound is refused (R64, D19). -/
theorem decodeCommand_of_too_long {F : FunctionCode} {slave : Byte} {frame : List Byte} {s : State} {m : Nat}
    (hm : s.rxMaxBytes = some m) (h : m < frame.length) :
    decodeCommand F slave frame s = .next (s.refuse .rxTooLong) := by
  simp [decodeCommand, (rxFits_eq_false _ _).mpr ⟨m, hm, h⟩]

/-! ### Bytes of a frame -/

@[simp] theorem beList_length (vs : List Word) : (beList vs).length = 2 * vs.length := by
  induction vs with
  | nil => rfl
  | cons v vs ih =>
    have step : beList (v :: vs) = hi8 v :: lo8 v :: beList vs := rfl
    simp [step, ih]
    omega

/-- Value `j` stands high byte first at `2j` and `2j + 1` (R125). -/
theorem beList_getElem? {vs : List Word} {j : Nat} {v : Word} (h : vs[j]? = some v) :
    (beList vs)[2 * j]? = some (hi8 v) ∧ (beList vs)[2 * j + 1]? = some (lo8 v) := by
  induction vs generalizing j with
  | nil => simp at h
  | cons u vs ih =>
    cases j with
    | zero =>
      obtain rfl : u = v := by simpa using h
      exact ⟨rfl, rfl⟩
    | succ j => exact ih h

/-- The CRC adds two bytes (R103). -/
@[simp] theorem withCrc_length (P : List Byte) : (withCrc P).length = P.length + 2 := by
  simp [withCrc, crcBytes]

/-- The bytes before the CRC are those of the payload. -/
theorem withCrc_getElem? {P : List Byte} {i : Nat} {b : Byte} (h : P[i]? = some b) : (withCrc P)[i]? = some b := by
  obtain ⟨hi, -⟩ := List.getElem?_eq_some_iff.mp h
  rw [withCrc, List.getElem?_append_left hi, h]

/-- A number below 256 has no high byte. -/
theorem hi8_ofNat {n : Nat} (h : n < 256) : hi8 (BitVec.ofNat 16 n) = 0x00#8 := by
  apply BitVec.eq_of_toNat_eq
  simp [hi8, Nat.shiftRight_eq_div_pow]
  omega

theorem lo8_ofNat (n : Nat) : lo8 (BitVec.ofNat 16 n) = BitVec.ofNat 8 n := by
  apply BitVec.eq_of_toNat_eq
  simp [lo8]

/-! ### The WriteMultipleRegisters request -/

/-- The seven bytes before the values, for a count (R71). -/
def reqWmrHeader (slave : Byte) (addr : Word) (n : Nat) : List Byte :=
  [slave, 0x10#8, hi8 addr, lo8 addr, hi8 (BitVec.ofNat 16 n), lo8 (BitVec.ofNat 16 n), BitVec.ofNat 8 (2 * n)]

/-- The request is the header, the values and the CRC of both (R71). -/
theorem reqWmr_eq (slave : Byte) (addr : Word) (vs : List Word) :
    reqWmr slave addr vs = withCrc (reqWmrHeader slave addr vs.length ++ beList vs) := rfl

/-- The header of an accepted count: the count fits in one byte. -/
theorem reqWmrHeader_of_le {slave : Byte} {addr : Word} {n : Nat} (h : n ≤ 127) :
    reqWmrHeader slave addr n
      = [slave, 0x10#8, hi8 addr, lo8 addr, 0x00#8, BitVec.ofNat 8 n, BitVec.ofNat 8 (2 * n)] := by
  rw [reqWmrHeader, hi8_ofNat (by omega), lo8_ofNat]

theorem reqWmr_length (slave : Byte) (addr : Word) (vs : List Word) :
    (reqWmr slave addr vs).length = 9 + 2 * vs.length := by
  simp [reqWmr_eq, reqWmrHeader]
  omega

/-- Value `j` of the request stands at `7 + 2j` and `8 + 2j`, high byte first (R125). -/
theorem reqWmr_getElem? {slave : Byte} {addr : Word} {vs : List Word} {j : Nat} {v : Word} (h : vs[j]? = some v) :
    (reqWmr slave addr vs)[7 + 2 * j]? = some (hi8 v) ∧ (reqWmr slave addr vs)[8 + 2 * j]? = some (lo8 v) := by
  obtain ⟨hhi, hlo⟩ := beList_getElem? h
  have skip (k : Nat) : (reqWmrHeader slave addr vs.length ++ beList vs)[7 + k]? = (beList vs)[k]? := by
    rw [Nat.add_comm]
    rfl
  rw [reqWmr_eq, show 8 + 2 * j = 7 + (2 * j + 1) by omega]
  exact ⟨withCrc_getElem? ((skip _).trans hhi), withCrc_getElem? ((skip _).trans hlo)⟩

/-! ### The examples of the rules -/

/-- R123's example. -/
theorem reqRhr_example : reqRhr 0x32#8 0x0000#16 0x0001#16
    = [0x32#8, 0x03#8, 0x00#8, 0x00#8, 0x00#8, 0x01#8, 0x81#8, 0xC9#8] := by
  decide +kernel

/-- R124's example. -/
theorem reqWsr_example : reqWsr 0x32#8 0x0006#16 0x00FF#16
    = [0x32#8, 0x06#8, 0x00#8, 0x06#8, 0x00#8, 0xFF#8, 0x2C#8, 0x48#8] := by
  decide +kernel

/-- R125's example. -/
theorem reqWmr_example : reqWmr 0x32#8 0x0006#16 [0x0080#16, 0x0001#16]
    = [0x32#8, 0x10#8, 0x00#8, 0x06#8, 0x00#8, 0x02#8, 0x04#8, 0x00#8, 0x80#8, 0x00#8, 0x01#8, 0x43#8, 0xE9#8] := by
  decide +kernel

end Sys2Proof.Machine
end

section
/-! PROOFS. The encoding (30_encoding.md): the command word, its operands, and the requests that ENCODE builds. -/

namespace Sys2Proof.Machine

/-! ### The command word and the operands -/

/-- Settles O6: each row of the table is an operation's own word, and a word that is none of them selects nothing. -/
theorem commandWordTable : Obligations.CommandWordTable := by
  intro w
  simp only [← eq_encodeWord_crcUpdate_iff]
  split_ifs with h1 h2 h3 h4 h5 h6 h7 h8 h9
  iterate 9 · exact decodeWord_eq_some_iff.mpr ‹_›
  · refine Option.eq_none_iff_forall_ne_some.mpr fun op hop => ?_
    have hw := eq_encodeWord_of_decodeWord hop
    match op with
    | .crcInit => exact h1 hw
    | .crcUpdate b =>
      obtain ⟨ha, -⟩ := eq_mkWord_iff.mp hw
      exact h2 (by rwa [← wordArg_eq_shift, ha])
    | .crcRead => exact h3 hw
    | .enc .rhr => exact h4 hw
    | .enc .wsr => exact h5 hw
    | .enc .wmr => exact h6 hw
    | .dec .rhr => exact h7 hw
    | .dec .wsr => exact h8 hw
    | .dec .wmr => exact h9 hw

/-- A reserved word at the head of the host's list is refused, whatever its operands (R63, R190). -/
theorem step_of_reserved_word {s : State} {w : Word} {p : Ports} {q : List HostEvent}
    (hp : s.pending = .issue (.command w p) :: q) (hw : decodeWord w = none) :
    step s = .next (State.refuse { s with pending := q } .reservedWord) := by
  rw [step_of_pending_issue hp, runIssue, decode_command_of_none hw]

/-- Settles O7: by the fields of the word, and by the step on what decodes to nothing. -/
theorem reservedWordsAreRefused : Obligations.ReservedWordsAreRefused :=
  ⟨decodeWord_eq_none_iff, fun _ _ _ _ hp hw => step_of_reserved_word hp hw⟩

/-- Settles O10: each row's word is its operation's own, and each constraint is that of the operation that checks it. -/
theorem commandsReadTheListedOperands : Obligations.CommandsReadTheListedOperands := by
  refine ⟨decode_command_encodeWord .crcInit, fun p b => ?_, decode_command_encodeWord .crcRead,
    decode_command_encodeWord (.enc .rhr), decode_command_encodeWord (.enc .wsr),
    decode_command_encodeWord (.enc .wmr), decode_command_encodeWord (.dec .rhr),
    decode_command_encodeWord (.dec .wsr), decode_command_encodeWord (.dec .wmr),
    fun _ _ _ _ h => execEncWsr_of_length_ne_one h, fun _ _ _ _ h => ?_, fun _ _ _ _ hm h => ?_⟩
  · rw [← encodeWord_crcUpdate]
    exact decode_command_encodeWord (.crcUpdate b) p
  · exact encodeWmr_of_rejected (h.imp_left Nat.lt_one_iff.mp)
  · exact ⟨decodeCommand_of_too_long hm h, decodeCommand_of_too_long hm h, decodeCommand_of_too_long hm h⟩

/-! ### ENCODE -/

/-- Settles O25: the meaning is the request frame, laid out. -/
theorem encodeReadRequest : Obligations.EncodeReadRequest := by
  refine ⟨decode_command_encodeWord (.enc .rhr), fun S A N s => emitFrame_next (reqRhr S A N) s, fun s => ?_⟩
  rw [← reqRhr_example]
  exact emitFrame_next _ s

/-- Settles O26: the meaning, for exactly one value, is the request frame, laid out. -/
theorem encodeWriteSingleRequest : Obligations.EncodeWriteSingleRequest := by
  refine ⟨decode_command_encodeWord (.enc .wsr), fun S A V s => emitFrame_next (reqWsr S A V) s, fun s => ?_⟩
  rw [← reqWsr_example]
  exact emitFrame_next _ s

/-- Settles O27: by the layout of the request, and by the count that is accepted or refused. -/
theorem encodeWriteMultipleRequest : Obligations.EncodeWriteMultipleRequest := by
  refine ⟨decode_command_encodeWord (.enc .wmr), fun S A vs s h1 h127 => ?_, fun _ _ _ _ h => encodeWmr_of_rejected h,
    fun s => ?_⟩
  · refine ⟨reqWmrHeader S A vs.length ++ beList vs, reqWmr S A vs, encodeWmr_of_accepted ⟨h1, h127⟩, rfl,
      reqWmr_length S A vs, ?_, fun _ _ => reqWmr_getElem?⟩
    rw [← reqWmrHeader_of_le h127]
    rfl
  · rw [← reqWmr_example]
    exact encodeWmr_of_accepted (values := [0x0080#16, 0x0001#16]) (by decide)

end Sys2Proof.Machine
end

section
/-! SUPPORT. The generator commands (40_crc.md): the CRC functions in numbers and byte by byte, what each command answers,
and what a sequence of them leaves; and the meanings that do not know of `crc`. -/

namespace Sys2Proof.Machine

/-! ### The CRC functions -/

/-- The shift step in numbers: bit 0 is the remainder by 2, and the shift the quotient (R101). -/
theorem crcStep_toNat (c : Word) :
    (crcStep c).toNat = if c.toNat % 2 = 1 then (c.toNat / 2) ^^^ 0xA001 else c.toNat / 2 := by
  cases h : c.toNat.testBit 0
  · rw [crcStep_even c h, if_neg (by simpa using h)]
    exact (BitVec.toNat_ushiftRight c 1).trans (Nat.shiftRight_one _)
  · rw [crcStep_odd c h, if_pos (by simpa using h), BitVec.toNat_xor, BitVec.toNat_ushiftRight, Nat.shiftRight_one]
    rfl

/-- `n` shift steps are the step iterated. -/
theorem crcShift_eq_iterate (n : Nat) (c : Word) : crcShift n c = crcStep^[n] c := by
  induction n generalizing c with
  | zero => rfl
  | succ n ih => exact ih (crcStep c)

/-- R106's example. -/
theorem crcUpdate_example : crcUpdate 0xFFFF#16 0x32#8 = 0x953E#16 := by decide

/-- One more byte is one more update (R100). -/
theorem crc16_append_byte (B : List Byte) (b : Byte) : crc16 (B ++ [b]) = crcUpdate (crc16 B) b :=
  crcFold_append crcInitial B [b]

/-- R107's example. -/
theorem crc16_example : crc16 [0x32#8, 0x03#8, 0x00#8, 0x00#8, 0x00#8, 0x01#8] = 0xC981#16 := by decide +kernel

/-! ### What a generator command answers -/

section
variable (s : State)

@[simp] theorem exec_crcInit : exec .crcInit s = .next { s with crc := crcInitial, out := .ack } :=
  writeCrc_next crcInitial s

@[simp] theorem exec_crcUpdate (b : Byte) :
    exec (.crcUpdate b) s = .next { s with crc := crcUpdate s.crc b, out := .ack } :=
  writeCrc_next (crcUpdate s.crc b) s

@[simp] theorem exec_crcRead : exec .crcRead s = .next { s with out := .crcValue s.crc (crcBytes s.crc) } := rfl

end

/-! ### What a sequence of them leaves -/

section
variable {s t : State}

/-- The rest of a sequence runs from where its first command ended (R48). -/
theorem execSeq_cons_of_next {i : Instr} (h : exec i s = .next t) (is : List Instr) :
    execSeq (i :: is) s = execSeq is t := by
  simp [execSeq, h]

/-- The second of two sequences runs from where the first ended. -/
theorem execSeq_append_of_next {is : List Instr} (h : execSeq is s = .next t) (js : List Instr) :
    execSeq (is ++ js) s = execSeq js t := by
  induction is generalizing s with
  | nil =>
    cases h
    rfl
  | cons i is ih =>
    cases hi : exec i s with
    | next u =>
      rw [execSeq_cons_of_next hi] at h
      rw [List.cons_append, execSeq_cons_of_next hi, ih h]
    | fault f | refused r => simp [execSeq, hi] at h

end

/-- Updates by the bytes of a sequence fold them, one after the other (R106). -/
theorem execSeq_map_crcUpdate (B : List Byte) (c : Word) (s : State) :
    execSeq (B.map .crcUpdate) { s with crc := c, out := .ack }
      = .next { s with crc := crcFold c B, out := .ack } := by
  induction B generalizing c with
  | nil => rfl
  | cons b B ih =>
    rw [List.map_cons, execSeq_cons_of_next (exec_crcUpdate _ b)]
    exact ih (crcUpdate c b)

/-- `crc.bytes` leaves the CRC of its bytes in `crc`, whatever was there (R68, R100). -/
theorem execSeq_pseudoCrcBytes (B : List Byte) (s : State) :
    execSeq (pseudoCrcBytes B) s = .next { s with crc := crc16 B, out := .ack } := by
  rw [pseudoCrcBytes, execSeq_cons_of_next (exec_crcInit s)]
  exact execSeq_map_crcUpdate B crcInitial s

/-- `crc.residue` also reads it (R68, R107). -/
theorem execSeq_pseudoCrcResidue (B : List Byte) (s : State) :
    execSeq (pseudoCrcResidue B) s
      = .next { s with crc := crc16 B, out := .crcValue (crc16 B) (crcBytes (crc16 B)) } := by
  rw [pseudoCrcResidue, execSeq_append_of_next (execSeq_pseudoCrcBytes B s), execSeq_cons_of_next (exec_crcRead _)]
  rfl

/-! ### The meanings that do not know of `crc` -/

/-- A meaning that completes, keeps `crc`, and does the same to the rest of the state whatever `crc` holds (R104). -/
def IgnoresCrc (m : State → Answer) : Prop :=
  ∀ (s : State) (c : Word), ∃ t, m s = .next t ∧ t.crc = s.crc ∧ m (s.setCrc c) = .next (t.setCrc c)

theorem answer_ignoresCrc (o : Output) : IgnoresCrc fun s => .next (s.answer o) :=
  fun _ _ => ⟨_, rfl, rfl, rfl⟩

theorem refuse_ignoresCrc (r : RefuseReason) : IgnoresCrc fun s => .next (s.refuse r) :=
  fun _ _ => ⟨_, rfl, rfl, rfl⟩

/-- A choice that `crc` does not enter, between two such meanings. -/
theorem ite_ignoresCrc {p : State → Bool} {m m' : State → Answer} (hp : ∀ s c, p (s.setCrc c) = p s)
    (hm : IgnoresCrc m) (hm' : IgnoresCrc m') : IgnoresCrc fun s => if p s then m s else m' s := by
  intro s c
  simp only [hp]
  cases p s with
  | true => exact hm s c
  | false => exact hm' s c

theorem emitFrame_ignoresCrc (B : List Byte) : IgnoresCrc (emitFrame B) := answer_ignoresCrc (.frameOut B)

theorem encodeWmr_ignoresCrc (slave : Byte) (addr : Word) (values : List Word) :
    IgnoresCrc (encodeWmr slave addr values) :=
  ite_ignoresCrc (fun _ _ => rfl) (emitFrame_ignoresCrc _) (refuse_ignoresCrc .wmrValueCount)

theorem execEncWsr_ignoresCrc (slave : Byte) (addr : Word) (value : List Word) :
    IgnoresCrc (execEncWsr slave addr value) := by
  match value with
  | [_] => exact emitFrame_ignoresCrc _
  | [] | _ :: _ :: _ => exact refuse_ignoresCrc .wsrValueCount

/-- The length a DECODE accepts is bounded by the parameter, not by `crc`. -/
theorem decodeCommand_ignoresCrc (F : FunctionCode) (S : Byte) (B : List Byte) : IgnoresCrc (decodeCommand F S B) :=
  ite_ignoresCrc (fun _ _ => rfl) (answer_ignoresCrc _) (refuse_ignoresCrc .rxTooLong)

/-- No ENCODE, no DECODE and no table frame knows of `crc`. -/
theorem exec_ignoresCrc {i : Instr} (h : usesCrc i = false) : IgnoresCrc (exec i) := by
  cases i with
  | crcInit | crcUpdate | crcRead => cases h
  | encRhr | frameReqRhr | frameReqWsr => exact emitFrame_ignoresCrc _
  | encWsr => exact execEncWsr_ignoresCrc _ _ _
  | encWmr | frameReqWmr => exact encodeWmr_ignoresCrc _ _ _
  | decRhr | decWsr | decWmr | frameRspRhr | frameRspWsr | frameRspWmr | frameExcRhr | frameExcWsr | frameExcWmr =>
    exact decodeCommand_ignoresCrc _ _ _

end Sys2Proof.Machine
end

section
/-! PROOFS. The CRC generator (40_crc.md): its three commands, the CRC they compute, and the commands that leave it
alone. -/

namespace Sys2Proof.Machine

/-- Settles O14: the step in numbers, the update as the step iterated, and the command as the write of the update. -/
theorem crcUpdateFoldsOneByte : Obligations.CrcUpdateFoldsOneByte := by
  refine ⟨crcStep_toNat, fun c b => crcShift_eq_iterate 8 _, fun p b => ?_, fun b s => exec_crcUpdate s b,
    by decide, crcUpdate_example⟩
  rw [← encodeWord_crcUpdate]
  exact decode_command_encodeWord (.crcUpdate b) p

/-- Settles O24: each of these instructions is one of the meanings that do not know of `crc`. -/
theorem encodeAndDecodeLeaveCrcAlone : Obligations.EncodeAndDecodeLeaveCrcAlone :=
  fun _ s c h => exec_ignoresCrc h s c

/-- Settles O13: the second write of the same value, with the same output, changes nothing. -/
theorem crcInitStartsAtFFFF : Obligations.CrcInitStartsAtFFFF := by
  refine ⟨decode_command_encodeWord .crcInit, exec_crcInit, fun s => ?_⟩
  simp [execSeq]

/-- Settles O15: `crc.bytes` and then `crc.read` is `crc.residue`, which reads the CRC of its bytes. -/
theorem crcReadGivesValueAndWireBytes : Obligations.CrcReadGivesValueAndWireBytes := by
  refine ⟨decode_command_encodeWord .crcRead, exec_crcRead, exec_crcRead State.reset, fun s => ?_⟩
  have residue := execSeq_pseudoCrcResidue [0x32#8, 0x03#8, 0x00#8, 0x00#8, 0x00#8, 0x01#8] s
  rw [crc16_example] at residue
  exact residue

/-- Settles O16: the fold over nothing, and over one byte more. -/
theorem crcOfASequence : Obligations.CrcOfASequence := ⟨rfl, crc16_append_byte⟩

end Sys2Proof.Machine
end

section
/-! PROOFS. The frame encoder (41_encode.md): the well-formed requests, and the refusal of every other. -/

namespace Sys2Proof.Machine

/-! ### What a command outputs -/

section
variable {s t : State} {p : Ports}

/-- ENCODE 0x06 answers the frame of its one value, or refuses by the number of values (R124). -/
theorem execEncWsr_next {slave : Byte} {addr : Word} {value : List Word} (h : execEncWsr slave addr value s = .next t) :
    (∃ v, value = [v] ∧ t = s.answer (.frameOut (reqWsr slave addr v)))
    ∨ (value.length ≠ 1 ∧ t = s.refuse .wsrValueCount) := by
  by_cases hn : value.length = 1
  · obtain ⟨v, rfl⟩ := List.length_eq_one_iff.mp hn
    cases h
    exact .inl ⟨v, rfl, rfl⟩
  · rw [execEncWsr_of_length_ne_one hn] at h
    cases h
    exact .inr ⟨hn, rfl⟩

/-- ENCODE puts out a frame where its request is well formed, and is refused where it is not (R121). -/
theorem exec_enc_next {f : FunctionCode} (h : exec (withOperands p (.enc f)) s = .next t) :
    ((withOperands p (.enc f)).wellFormed = true ∧ ∃ B, t = s.answer (.frameOut B))
    ∨ ((withOperands p (.enc f)).wellFormed = false ∧ ∃ r, t = s.refuse r) := by
  cases f with
  | rhr =>
    cases h
    exact .inl ⟨rfl, _, rfl⟩
  | wsr =>
    exact (execEncWsr_next h).imp (fun ⟨v, hv, ht⟩ => ⟨congrArg wsrCountOk hv, _, ht⟩)
      (fun ⟨hn, ht⟩ => ⟨beq_eq_false_iff_ne.mpr hn, _, ht⟩)
  | wmr => exact (encodeWmr_next h).imp (.imp_right fun ht => ⟨_, ht⟩) (.imp_right fun ht => ⟨_, ht⟩)

/-- No command but ENCODE puts out a frame (R66). -/
theorem exec_ne_frameOut {op : Op} (hop : ∀ f, op ≠ .enc f) (h : exec (withOperands p op) s = .next t) (B : List Byte) :
    t.out ≠ .frameOut B := by
  have decOut {F : FunctionCode} (hd : decodeCommand F p.slave p.frame s = .next t) : t.out ≠ .frameOut B := by
    obtain ⟨-, rfl⟩ | ⟨-, rfl⟩ := decodeCommand_next hd <;> simp
  cases op with
  | crcInit | crcUpdate | crcRead =>
    cases h
    simp
  | enc f => exact absurd rfl (hop f)
  | dec f => cases f <;> exact decOut h

end

/-! ### Well-formed requests -/

/-- The words with `OP` 4 that select an operation select an ENCODE (R62). -/
theorem eq_enc_of_wordOp {w : Word} {op : Op} (hw : decodeWord w = some op) (h4 : w.toNat % 16 = 4) :
    ∃ f, op = .enc f := by
  have hop : wordOp (encodeWord op) = 4#4 := by
    rw [← eq_encodeWord_of_decodeWord hw]
    exact (wordOp_eq_iff w 4#4).mpr h4
  cases op with
  | enc f => exact ⟨f, rfl⟩
  | crcInit | crcUpdate | crcRead | dec => simp [encodeWord, mkWord_op] at hop

/-- R121's requests are those of an ENCODE's word whose operands are well formed. -/
theorem enc_wellFormed_iff (w : Word) (p : Ports) :
    (∃ f, decodeWord w = some (.enc f) ∧ (withOperands p (.enc f)).wellFormed = true) ↔
      w = 0x0304#16 ∨ (w = 0x0604#16 ∧ p.value.length = 1)
      ∨ (w = 0x1004#16 ∧ 1 ≤ p.values.length ∧ p.values.length ≤ 127) := by
  simp only [decodeWord_eq_some_iff]
  constructor
  · rintro ⟨f, rfl, hf⟩
    cases f with
    | rhr => exact .inl rfl
    | wsr => exact .inr (.inl ⟨rfl, beq_iff_eq.mp hf⟩)
    | wmr => exact .inr (.inr ⟨rfl, (wmrCountOk_iff p.values).mp hf⟩)
  · rintro (rfl | ⟨rfl, h1⟩ | ⟨rfl, hn⟩)
    · exact ⟨.rhr, rfl, rfl⟩
    · exact ⟨.wsr, rfl, beq_iff_eq.mpr h1⟩
    · exact ⟨.wmr, rfl, (wmrCountOk_iff p.values).mpr hn⟩

/-- Settles O28: by what the word selects. A reserved word is refused, an ENCODE puts out a frame or is refused as its
request is well formed or not, and no other operation puts out a frame or has `OP` 4. -/
theorem illFormedRequestsProduceNoFrame : Obligations.IllFormedRequestsProduceNoFrame := by
  intro s t w p q hp hs
  rw [← enc_wellFormed_iff]
  cases hw : decodeWord w with
  | none =>
    rw [step_of_reserved_word hp hw] at hs
    cases hs
    simp
  | some op =>
    rw [step_of_pending_issue hp, runIssue, decode_command_of_some hw] at hs
    by_cases hop : ∃ f, op = .enc f
    · obtain ⟨f, rfl⟩ := hop
      obtain ⟨hf, B, rfl⟩ | ⟨hf, r, rfl⟩ := exec_enc_next hs <;> simp [hf]
    · have noFrame := exec_ne_frameOut (not_exists.mp hop) hs
      refine ⟨iff_of_false (not_exists.mpr noFrame) ?_, fun h4 => absurd (eq_enc_of_wordOp hw h4) hop⟩
      rintro ⟨f, hf, -⟩
      exact hop ⟨f, Option.some.inj hf⟩

end Sys2Proof.Machine
end

section
/-! SUPPORT. The decode pipeline (42_decode.md): each step in the rule's own terms, which step is the failing one, what
the failing step makes of the result, and what a frame with its CRC appended gives. -/

namespace Sys2Proof.Machine

section
variable {B : List Byte} {S : Byte} {F : FunctionCode}

/-! ### Each step, in the rule's own terms -/

/-- No function code is its own exception code: bit 7 tells them apart (R144). -/
theorem code_ne_excCode (F : FunctionCode) : F.code ≠ F.code ||| 0x80#8 := by
  cases F <;> decide

theorem isException_iff : isException 0#8 B F = true ↔ B.getD 1 0#8 = F.code ||| 0x80#8 := beq_iff_eq

/-- A function byte `F` makes a normal response (R144). -/
theorem isException_of_code (h : B.getD 1 0#8 = F.code) : isException 0#8 B F = false := by
  rw [← Bool.not_eq_true, isException_iff, h]
  exact code_ne_excCode F

/-- Step 1b asks only the read responses that are no exception frame (R142). -/
theorem shortRead_iff : shortRead 0#8 B F = true ↔
    F = .rhr ∧ B.getD 1 0#8 ≠ 0x83#8 ∧ B.length < 3 + (B.getD 2 0#8).toNat := by
  cases F <;> simp [shortRead, isException, byteAt, FunctionCode.excCode, FunctionCode.code]

/-- Step 5r over the integers is an equation of natural numbers (R155). -/
theorem wrongByteCount_iff : wrongByteCount 0#8 B = true ↔ B.length ≠ 5 + (B.getD 2 0#8).toNat := by
  rw [wrongByteCount, decide_eq_true_iff, byteAt]
  omega

theorem oddByteCount_iff : oddByteCount 0#8 B = true ↔ (B.getD 2 0#8).toNat % 2 = 1 := decide_eq_true_iff

theorem stepFails_s1a_iff : stepFails B S F .s1a = true ↔ B.length < 4 := decide_eq_true_iff

theorem stepFails_s1b_iff : stepFails B S F .s1b = true ↔
    F = .rhr ∧ B.getD 1 0#8 ≠ 0x83#8 ∧ B.length < 3 + (B.getD 2 0#8).toNat := shortRead_iff

theorem stepFails_s2_iff : stepFails B S F .s2 = true ↔ B.getD 0 0#8 ≠ S := bne_iff_ne

theorem stepFails_s3_iff : stepFails B S F .s3 = true ↔
    ¬ (B.getD 1 0#8 = F.code ∨ B.getD 1 0#8 = F.code ||| 0x80#8) := by
  rw [stepFails, wrongFunction, Bool.and_eq_true, Bool.not_eq_true', ← Bool.not_eq_true, isException_iff, not_or]
  exact and_congr_left' bne_iff_ne

theorem stepFails_s4_iff : stepFails B S F .s4 = true ↔ ¬ crcFieldMatches B := bne_iff_ne

/-! ### Which step is the failing one -/

/-- The steps that R141 evaluates before one. -/
def stepsBefore (p : PipelineStep) : List PipelineStep := pipelineOrder.takeWhile (· ≠ p)

theorem mem_pipelineOrder (p : PipelineStep) : p ∈ pipelineOrder := by
  cases p <;> decide

/-- The first element that satisfies a predicate is the one that satisfies it with none before it that does. -/
theorem find?_eq_some_iff_takeWhile {α : Type} [DecidableEq α] {f : α → Bool} {l : List α} {a : α} (ha : a ∈ l) :
    l.find? f = some a ↔ (∀ b ∈ l.takeWhile (· ≠ a), ¬ f b = true) ∧ f a = true := by
  induction l with
  | nil => cases ha
  | cons x l ih =>
    by_cases hx : x = a
    · subst hx
      have found : (x :: l).find? f = some x ↔ f x = true :=
        ⟨List.find?_some, fun hf => List.find?_cons_of_pos hf⟩
      simp [found]
    · have hl : a ∈ l := (List.mem_cons.mp ha).resolve_left (Ne.symm hx)
      cases hf : f x <;> simp [hf, hx, ih hl]

/-- The failing step is the one that fails with none before it that does (R141). -/
theorem failingStep_eq_some_iff {p : PipelineStep} :
    failingStep B S F = some p ↔ (∀ q ∈ stepsBefore p, ¬ stepFails B S F q = true) ∧ stepFails B S F p = true :=
  find?_eq_some_iff_takeWhile (mem_pipelineOrder p)

/-- A step that does not fail is not the failing one. -/
theorem failingStep_ne {p : PipelineStep} (h : stepFails B S F p = false) : failingStep B S F ≠ some p :=
  fun hp => by simpa [h] using List.find?_some hp

/-- There is no failing step exactly where no step fails. -/
theorem failingStep_eq_none_iff : failingStep B S F = none ↔ ∀ p, ¬ stepFails B S F p = true := by
  simp [failingStep, mem_pipelineOrder]

/-- Step 1 lets a frame pass where neither of its two rules fails (R142). -/
theorem lengthPasses_iff (S : Byte) : lengthPasses B F ↔ ∀ q ∈ stepsBefore .s2, ¬ stepFails B S F q = true := by
  have before : stepsBefore .s2 = [.s1a, .s1b] := rfl
  rw [before, List.forall_mem_cons, List.forall_mem_singleton, stepFails_s1a_iff, stepFails_s1b_iff, not_lt]
  simp only [lengthPasses, not_and, not_lt]

/-- Steps 1 to 4 let a frame pass where none of them fails (R142..R145). -/
theorem framePasses_iff : framePasses B S F ↔ ∀ q ∈ stepsBefore .s5e, ¬ stepFails B S F q = true := by
  have before : stepsBefore .s5e = stepsBefore .s2 ++ [.s2, .s3, .s4] := rfl
  rw [before, List.forall_mem_append, ← lengthPasses_iff, List.forall_mem_cons, List.forall_mem_cons,
    List.forall_mem_singleton, stepFails_s2_iff, stepFails_s3_iff, stepFails_s4_iff, not_ne_iff, not_not, not_not]

/-- Step 1 is the failing one exactly where it does not let the frame pass (R142). -/
theorem failingStep_eq_s1_iff :
    (failingStep B S F = some .s1a ∨ failingStep B S F = some .s1b) ↔ ¬ lengthPasses B F := by
  have before1a : stepsBefore .s1a = [] := rfl
  have before1b : stepsBefore .s1b = [.s1a] := rfl
  have before2 : stepsBefore .s2 = [.s1a, .s1b] := rfl
  rw [failingStep_eq_some_iff, failingStep_eq_some_iff, lengthPasses_iff S, before1a, before1b, before2]
  by_cases h : stepFails B S F .s1a = true <;> simp [h]

/-- Step 2 is the failing one where step 1 passes and the address differs (R143). -/
theorem failingStep_eq_s2_iff : failingStep B S F = some .s2 ↔ lengthPasses B F ∧ B.getD 0 0#8 ≠ S := by
  rw [failingStep_eq_some_iff, ← lengthPasses_iff, stepFails_s2_iff]

/-- Step 3 is the failing one where steps 1 and 2 pass and the function byte is neither of the two (R144). -/
theorem failingStep_eq_s3_iff : failingStep B S F = some .s3 ↔
    lengthPasses B F ∧ B.getD 0 0#8 = S ∧ ¬ (B.getD 1 0#8 = F.code ∨ B.getD 1 0#8 = F.code ||| 0x80#8) := by
  have before : stepsBefore .s3 = stepsBefore .s2 ++ [.s2] := rfl
  rw [failingStep_eq_some_iff, before, List.forall_mem_append, ← lengthPasses_iff, List.forall_mem_singleton,
    stepFails_s2_iff, stepFails_s3_iff, not_ne_iff, and_assoc]

/-- Step 4 is the failing one where steps 1 to 3 pass and the CRC differs (R145). -/
theorem failingStep_eq_s4_iff : failingStep B S F = some .s4 ↔
    lengthPasses B F ∧ B.getD 0 0#8 = S ∧ (B.getD 1 0#8 = F.code ∨ B.getD 1 0#8 = F.code ||| 0x80#8)
      ∧ ¬ crcFieldMatches B := by
  have before : stepsBefore .s4 = stepsBefore .s2 ++ [.s2, .s3] := rfl
  rw [failingStep_eq_some_iff, before, List.forall_mem_append, ← lengthPasses_iff, List.forall_mem_cons,
    List.forall_mem_singleton, stepFails_s2_iff, stepFails_s3_iff, stepFails_s4_iff, not_ne_iff, not_not]
  simp only [and_assoc]

/-- In a frame that passes steps 1 to 4 the failing step is one of step 5. -/
theorem failingStep_of_framePasses (h : framePasses B S F) :
    failingStep B S F = [.s5e, .s5, .s5r, .s5o, .s5w].find? (stepFails B S F) := by
  have split : pipelineOrder = stepsBefore .s5e ++ [.s5e, .s5, .s5r, .s5o, .s5w] := rfl
  rw [failingStep, split, List.find?_append, List.find?_eq_none.mpr (framePasses_iff.mp h), Option.none_or]

/-- In a normal response that passes steps 1 to 4 it is one of 5r, 5o and 5w. -/
theorem failingStep_of_normal (h : framePasses B S F) (hf : B.getD 1 0#8 = F.code) :
    failingStep B S F = [.s5r, .s5o, .s5w].find? (stepFails B S F) := by
  have not5e : stepFails B S F .s5e = false := by simp [stepFails, isException_of_code hf]
  have not5 : stepFails B S F .s5 = false := by simp [stepFails, isException_of_code hf]
  rw [failingStep_of_framePasses h, List.find?_cons_of_neg (by simp [not5e]), List.find?_cons_of_neg (by simp [not5])]

/-! ### What the failing step makes of the result -/

/-- The output that the first failing step of a list decides, `firstFailureResult` being that of the whole pipeline. -/
def firstFailureAmong (B : List Byte) (S : Byte) (F : FunctionCode) (steps : List PipelineStep) : Result :=
  match steps.find? (stepFails B S F) with
  | some p => .err (stepError B p)
  | none => .ok (acceptFrame 0x00#8 B F)

theorem firstFailureResult_eq : firstFailureResult B S F = firstFailureAmong B S F pipelineOrder := rfl

theorem firstFailureAmong_nil : firstFailureAmong B S F [] = .ok (acceptFrame 0x00#8 B F) := rfl

theorem firstFailureAmong_cons (p : PipelineStep) (steps : List PipelineStep) :
    firstFailureAmong B S F (p :: steps)
      = if stepFails B S F p then .err (stepError B p) else firstFailureAmong B S F steps := by
  cases h : stepFails B S F p <;> simp [firstFailureAmong, h]

/-- Step 5 of the function is the first failure among the steps of step 5. -/
theorem structureStep_eq (S : Byte) :
    structureStep 0#8 B F = firstFailureAmong B S F [.s5e, .s5, .s5r, .s5o, .s5w] := by
  simp only [firstFailureAmong_cons, firstFailureAmong_nil, structureStep, stepFails, stepError]
  by_cases hexc : isException 0#8 B F = true
  · by_cases h5 : B.length = 5 <;> simp [hexc, h5]
  · cases F with
    | rhr => by_cases hbc : wrongByteCount 0#8 B = true <;> simp [hexc, hbc]
    | wsr | wmr => simp [hexc]

/-- The function of R153 is the first failure of the whole pipeline (R141, R187). -/
theorem decodeFrame_eq_firstFailureResult : decodeFrame B S F = firstFailureResult B S F := by
  rw [firstFailureResult_eq, pipelineOrder, firstFailureAmong_cons, firstFailureAmong_cons, firstFailureAmong_cons,
    firstFailureAmong_cons, firstFailureAmong_cons, ← structureStep_eq]
  rfl

theorem decodeFrame_of_failingStep {p : PipelineStep} (h : failingStep B S F = some p) :
    decodeFrame B S F = .err (stepError B p) := by
  rw [decodeFrame_eq_firstFailureResult, firstFailureResult, h]

/-- An error is the one its failing step reports (R187). -/
theorem decodeFrame_eq_err_iff {e : DecodeError} :
    decodeFrame B S F = .err e ↔ ∃ p, failingStep B S F = some p ∧ stepError B p = e := by
  rw [decodeFrame_eq_firstFailureResult, firstFailureResult]
  cases failingStep B S F <;> simp

/-- A frame is accepted where no step fails. -/
theorem decodeFrame_eq_ok_iff {r : Response} :
    decodeFrame B S F = .ok r ↔ failingStep B S F = none ∧ acceptFrame 0#8 B F = r := by
  rw [decodeFrame_eq_firstFailureResult, firstFailureResult]
  cases failingStep B S F <;> simp

/-! ### Which step each error comes from (R181..R184) -/

theorem decodeFrame_addressMismatch_iff :
    decodeFrame B S F = .err .addressMismatch ↔ failingStep B S F = some .s2 := by
  have source (p) : stepError B p = .addressMismatch ↔ p = .s2 := by cases p <;> simp [stepError]
  simp [decodeFrame_eq_err_iff, source]

theorem decodeFrame_crcMismatch_iff :
    decodeFrame B S F = .err .crcMismatch ↔ failingStep B S F = some .s4 := by
  have source (p) : stepError B p = .crcMismatch ↔ p = .s4 := by cases p <;> simp [stepError]
  simp [decodeFrame_eq_err_iff, source]

theorem decodeFrame_deviceException_iff :
    (∃ c, decodeFrame B S F = .err (.deviceException c)) ↔ failingStep B S F = some .s5 := by
  have source (p) : (∃ c, stepError B p = .deviceException c) ↔ p = .s5 := by cases p <;> simp [stepError]
  simp only [decodeFrame_eq_err_iff, exists_comm (α := Byte), exists_and_left, source, exists_eq_right]

theorem decodeFrame_malformedFrame_iff : decodeFrame B S F = .err .malformedFrame ↔
    failingStep B S F ∈ [some .s1a, some .s1b, some .s3, some .s5e, some .s5r, some .s5o, some .s5w] := by
  have source (p) : stepError B p = .malformedFrame ↔ p ∈ [.s1a, .s1b, .s3, .s5e, .s5r, .s5o, .s5w] := by
    cases p <;> simp [stepError]
  simp only [decodeFrame_eq_err_iff, source]
  cases failingStep B S F <;> simp

/-- Step 5w is not asked of a read response, so its errors come from the other six (R150). -/
theorem decodeFrame_read_malformedFrame_iff : decodeFrame B S .rhr = .err .malformedFrame ↔
    failingStep B S .rhr ∈ [some .s1a, some .s1b, some .s3, some .s5e, some .s5r, some .s5o] := by
  have not5w : failingStep B S .rhr ≠ some .s5w := failingStep_ne rfl
  simp [decodeFrame_malformedFrame_iff, not5w]

/-- Steps 1b, 5r and 5o are not asked of a write response, so its errors come from the other four (R151, R152). -/
theorem decodeFrame_write_malformedFrame_iff (hF : F ≠ .rhr) : decodeFrame B S F = .err .malformedFrame ↔
    failingStep B S F ∈ [some .s1a, some .s3, some .s5e, some .s5w] := by
  have not1b : failingStep B S F ≠ some .s1b := failingStep_ne (by simp [stepFails, shortRead, hF])
  have not5r : failingStep B S F ≠ some .s5r := failingStep_ne (by simp [stepFails, hF])
  have not5o : failingStep B S F ≠ some .s5o := failingStep_ne (by simp [stepFails, hF])
  simp [decodeFrame_malformedFrame_iff, not1b, not5r, not5o]

/-- What step 1 does not let pass is malformed, whatever else is wrong with it (R142). -/
theorem decodeFrame_of_not_lengthPasses (h : ¬ lengthPasses B F) : decodeFrame B S F = .err .malformedFrame := by
  obtain h1a | h1b := failingStep_eq_s1_iff.mpr h
  · exact decodeFrame_of_failingStep h1a
  · exact decodeFrame_of_failingStep h1b

/-! ### Frames that pass steps 1 to 4 -/

/-- Such a frame is left to step 5. -/
theorem decodeFrame_of_framePasses (h : framePasses B S F) : decodeFrame B S F = structureStep 0#8 B F := by
  rw [decodeFrame_eq_firstFailureResult, firstFailureResult, failingStep_of_framePasses h, structureStep_eq S]
  rfl

/-- Step 5 on an exception frame (R146). -/
theorem decodeFrame_of_exception (h : framePasses B S F) (hf : B.getD 1 0#8 = F.code ||| 0x80#8) :
    decodeFrame B S F
      = if B.length ≠ 5 then .err .malformedFrame else .err (.deviceException (B.getD 2 0#8)) := by
  rw [decodeFrame_of_framePasses h, structureStep.eq_def, if_pos (isException_iff.mpr hf)]
  rfl

/-- Step 5 on a read response (R146). -/
theorem decodeFrame_of_read (h : framePasses B S .rhr) (hf : B.getD 1 0#8 = FunctionCode.rhr.code) :
    decodeFrame B S .rhr
      = if B.length = 5 + (B.getD 2 0#8).toNat ∧ (B.getD 2 0#8).toNat % 2 = 0
        then .ok (acceptFrame 0#8 B .rhr) else .err .malformedFrame := by
  have passes : ¬ (wrongByteCount 0#8 B || oddByteCount 0#8 B) = true ↔
      B.length = 5 + (B.getD 2 0#8).toNat ∧ (B.getD 2 0#8).toNat % 2 = 0 := by
    rw [Bool.or_eq_true, wrongByteCount_iff, oddByteCount_iff]
    omega
  rw [decodeFrame_of_framePasses h, structureStep.eq_def, if_neg (by simp [isException_of_code hf])]
  simp only [← passes, ite_not]

/-- Step 5 on a write response (R146). -/
theorem decodeFrame_of_write (hF : F ≠ .rhr) (h : framePasses B S F) (hf : B.getD 1 0#8 = F.code) :
    decodeFrame B S F = if B.length = 8 then .ok (acceptFrame 0#8 B F) else .err .malformedFrame := by
  rw [decodeFrame_of_framePasses h, structureStep.eq_def, if_neg (by simp [isException_of_code hf])]
  cases F with
  | rhr => exact absurd rfl hF
  | wsr | wmr => exact ite_not _ _ _

/-! ### Accepted frames -/

/-- An accepted frame passed steps 1 to 4 and is no exception frame. -/
theorem framePasses_of_ok {r : Response} (h : decodeFrame B S F = .ok r) :
    framePasses B S F ∧ B.getD 1 0#8 = F.code := by
  obtain ⟨noFailure, -⟩ := decodeFrame_eq_ok_iff.mp h
  have passes : framePasses B S F := framePasses_iff.mpr fun q _ => failingStep_eq_none_iff.mp noFailure q
  have ⟨_, _, hf, _⟩ := passes
  refine ⟨passes, hf.resolve_right fun hexc => ?_⟩
  rw [decodeFrame_of_exception passes hexc] at h
  split at h <;> cases h

theorem decodeFrame_read_eq_ok {r : Response} (h : decodeFrame B S .rhr = .ok r) :
    B.length = 5 + (B.getD 2 0#8).toNat ∧ (B.getD 2 0#8).toNat % 2 = 0
      ∧ r = .readHolding (B.getD 0 0#8) (readRegs 0#8 B) := by
  obtain ⟨passes, hf⟩ := framePasses_of_ok h
  rw [decodeFrame_of_read passes hf] at h
  split at h
  case isTrue hlen =>
    cases h
    exact ⟨hlen.1, hlen.2, rfl⟩
  case isFalse => cases h

theorem decodeFrame_write_eq_ok (hF : F ≠ .rhr) {r : Response} (h : decodeFrame B S F = .ok r) :
    B.length = 8 ∧ r = acceptFrame 0#8 B F := by
  obtain ⟨passes, hf⟩ := framePasses_of_ok h
  rw [decodeFrame_of_write hF passes hf] at h
  split at h
  case isTrue hlen =>
    cases h
    exact ⟨hlen, rfl⟩
  case isFalse => cases h

@[simp] theorem readRegs_length : (readRegs 0#8 B).length = (B.getD 2 0#8).toNat / 2 := by
  simp [readRegs, byteAt]

/-- Register `j` is read high byte first from `3 + 2j` and `4 + 2j` (R147). -/
theorem readRegs_getElem? {j : Nat} (h : j < (B.getD 2 0#8).toNat / 2) :
    (readRegs 0#8 B)[j]? = some (be16 (B.getD (3 + 2 * j) 0#8) (B.getD (4 + 2 * j) 0#8)) := by
  rw [readRegs, byteAt, List.getElem?_map, List.getElem?_range h]
  rfl

end

/-! ### Frames with their CRC appended -/

/-- A 16-bit value is put together from its two bytes (R9). -/
@[simp] theorem be16_hi8_lo8 (v : Word) : be16 (hi8 v) (lo8 v) = v := by
  apply BitVec.eq_of_getLsbD_eq
  intro i hi
  by_cases h8 : i < 8
  · simp [be16, hi8, lo8, h8, hi]
  · have high : 8 + (i - 8) = i := by omega
    have inHigh : i - 8 < 8 := by omega
    simp [be16, hi8, lo8, h8, high, inHigh, hi]

/-- The transmitted CRC is the low byte and then the high byte (R43). -/
theorem crcFieldMatches_append (P : List Byte) (l h : Byte) :
    crcFieldMatches (P ++ [l, h]) ↔ crc16 P = be16 h l := by
  simp [crcFieldMatches, be16, BitVec.or_comm]

/-- The CRC field of a frame made by `withCrc` matches (R103, R145). -/
theorem crcFieldMatches_withCrc (P : List Byte) : crcFieldMatches (withCrc P) :=
  (crcFieldMatches_append P _ _).mpr (be16_hi8_lo8 (crc16 P)).symm

/-- A frame made for slave `S` and one of the two function bytes passes steps 1 to 4, where its byte count, if it is
asked, fits. -/
theorem framePasses_withCrc {F : FunctionCode} {S fn : Byte} {rest : List Byte}
    (hfn : fn = F.code ∨ fn = F.code ||| 0x80#8)
    (hlen : F = .rhr → fn ≠ 0x83#8 → 3 + ((withCrc (S :: fn :: rest)).getD 2 0#8).toNat ≤ rest.length + 4) :
    framePasses (withCrc (S :: fn :: rest)) S F := by
  have length : (withCrc (S :: fn :: rest)).length = rest.length + 4 := by simp
  exact ⟨⟨by omega, fun hF hne => length ▸ hlen hF hne⟩, rfl, hfn, crcFieldMatches_withCrc _⟩

/-- An exception frame reports its code, every value of it (R75, R146). -/
theorem decodeFrame_excFrame (F : FunctionCode) (S c : Byte) :
    decodeFrame (excFrame F S c) S F = .err (.deviceException c) := by
  have passes : framePasses (excFrame F S c) S F :=
    framePasses_withCrc (.inr rfl) (by rintro rfl hne; exact absurd rfl hne)
  rw [decodeFrame_of_exception passes rfl, if_neg (by simp [excFrame])]
  rfl

/-- A read response without registers is accepted (R150). -/
theorem decodeFrame_rspRhr_nil (S : Byte) : decodeFrame (rspRhr S []) S .rhr = .ok (.readHolding S []) := by
  have passes : framePasses (rspRhr S []) S .rhr := framePasses_withCrc (.inl rfl) (fun _ _ => Nat.le_add_right 3 2)
  have byteCount : (rspRhr S []).getD 2 0#8 = 0#8 := rfl
  have noRegs : readRegs 0#8 (rspRhr S []) = [] :=
    List.eq_nil_of_length_eq_zero (by rw [readRegs_length, byteCount]; rfl)
  rw [decodeFrame_of_read passes rfl, if_pos ⟨rfl, rfl⟩, acceptFrame, noRegs]
  rfl

/-- The bytes of the layout that R73 and R74 share. -/
theorem twoWordFrame_eq (S fn : Byte) (A V : Word) : twoWordFrame S fn A V
    = [S, fn, hi8 A, lo8 A, hi8 V, lo8 V] ++ crcBytes (crc16 [S, fn, hi8 A, lo8 A, hi8 V, lo8 V]) := rfl

/-- A WriteSingleRegister response gives back its fields (R73, R148). -/
theorem decodeFrame_rspWsr (S : Byte) (A V : Word) : decodeFrame (rspWsr S A V) S .wsr = .ok (.writeSingle S A V) := by
  have passes : framePasses (rspWsr S A V) S .wsr := framePasses_withCrc (.inl rfl) nofun
  rw [decodeFrame_of_write (by decide) passes rfl, if_pos (by simp [rspWsr, twoWordFrame_eq, crcBytes])]
  simp [rspWsr, twoWordFrame_eq, acceptFrame, byteAt]

/-- The echo of a whole request passes every step but the last: it is at least 9 bytes long (R152). -/
theorem decodeFrame_reqWmr (S : Byte) (A : Word) (vs : List Word) :
    decodeFrame (reqWmr S A vs) S .wmr = .err .malformedFrame := by
  have passes : framePasses (reqWmr S A vs) S .wmr := framePasses_withCrc (.inl rfl) nofun
  rw [decodeFrame_of_write (by decide) passes rfl, if_neg]
  rw [reqWmr_length]
  omega

/-! ### The DECODE commands -/

/-- DECODE of a frame within the bound puts out the result of R153 and changes nothing else. -/
theorem decodeCommand_of_fits {F : FunctionCode} {S : Byte} {B : List Byte} {s : State}
    (h : ∀ m, s.rxMaxBytes = some m → B.length ≤ m) :
    decodeCommand F S B s = .next { s with out := .result (decodeFrame B S F) } := by
  rw [decodeCommand, if_pos ((rxFits_iff _ _).mpr h)]
  rfl

/-! ### The examples of the rules -/

/-- R150's example of an echoed read request. -/
theorem decodeFrame_reqRhr_example :
    decodeFrame [0x32#8, 0x03#8, 0x00#8, 0x00#8, 0x00#8, 0x01#8, 0x81#8, 0xC9#8] 0x32#8 .rhr
      = .err .malformedFrame := by
  decide +kernel

/-- R150's example. -/
theorem decodeFrame_rhr_example :
    decodeFrame [0x32#8, 0x03#8, 0x02#8, 0x12#8, 0x34#8, 0xB1#8, 0x37#8] 0x32#8 .rhr
      = .ok (.readHolding 0x32#8 [0x1234#16]) := by
  decide +kernel

/-- R151's example. -/
theorem decodeFrame_wsr_example :
    decodeFrame [0x32#8, 0x06#8, 0x00#8, 0x06#8, 0x00#8, 0xFF#8, 0x2C#8, 0x48#8] 0x32#8 .wsr
      = .ok (.writeSingle 0x32#8 0x0006#16 0x00FF#16) := by
  decide +kernel

/-- R152's example. -/
theorem decodeFrame_wmr_example :
    decodeFrame [0x32#8, 0x10#8, 0x00#8, 0x06#8, 0x00#8, 0x02#8, 0xA4#8, 0x0A#8] 0x32#8 .wmr
      = .ok (.writeMultiple 0x32#8 0x0006#16 0x0002#16) := by
  decide +kernel

end Sys2Proof.Machine
end

section
/-! PROOFS. The frame decoder (42_decode.md): the pipeline step by step, what it accepts, and the three commands. -/

namespace Sys2Proof.Machine

/-! ### The pipeline -/

/-- Settles O30: each clause is a frame that step 1 does not let pass. -/
theorem lengthStepIsFirst : Obligations.LengthStepIsFirst := by
  refine ⟨fun B S F h => ?_, fun B S h1 h => ?_, fun B S F => failingStep_eq_s1_iff⟩
  · exact decodeFrame_of_not_lengthPasses fun ⟨h4, _⟩ => absurd h (not_lt.mpr h4)
  · exact decodeFrame_of_not_lengthPasses fun ⟨_, hread⟩ => absurd h (not_lt.mpr (hread rfl h1))

/-- Settles O31: the error comes from step 2, and step 2 is the failing one there. -/
theorem addressMismatchExactly : Obligations.AddressMismatchExactly :=
  fun _ _ _ => decodeFrame_addressMismatch_iff.trans failingStep_eq_s2_iff

/-- Settles O32: the failing step is 3 for another code, and 4 for an exception frame with a wrong CRC. -/
theorem functionStepRejectsOtherCodes : Obligations.FunctionStepRejectsOtherCodes := by
  intro B S F hlen hS
  refine ⟨fun hf => ?_, fun hexc hcrc => ?_, fun ⟨hf, hexc⟩ => code_ne_excCode F (hf.symm.trans hexc)⟩
  · exact decodeFrame_of_failingStep (failingStep_eq_s3_iff.mpr ⟨hlen, hS, not_or.mpr hf⟩)
  · exact decodeFrame_of_failingStep (failingStep_eq_s4_iff.mpr ⟨hlen, hS, .inr hexc, hcrc⟩)

/-- Settles O33: the error comes from step 4, and step 4 is the failing one there. -/
theorem crcMismatchExactly : Obligations.CrcMismatchExactly :=
  fun _ _ _ => decodeFrame_crcMismatch_iff.trans failingStep_eq_s4_iff

/-- Settles O36: by the steps of the pipeline, the last five of them the cases of step 5. -/
theorem firstFailingStepDecides : Obligations.FirstFailingStepDecides := fun _ _ _ => decodeFrame_eq_firstFailureResult

/-- A result chosen between acceptance and a malformed frame is an acceptance exactly where the choice says so. -/
theorem accepted_iff_of_eq_ite {c : Prop} [Decidable c] {a : Response} {x : Result}
    (h : x = if c then .ok a else .err .malformedFrame) :
    ((∃ r, x = .ok r) ↔ c) ∧ ((∀ r, x ≠ .ok r) → x = .err .malformedFrame) := by
  subst h
  split <;> simp [*]

/-- Settles O35: step 5 on an exception frame, on a read response and on a write response. -/
theorem structureStepDecidesAcceptance : Obligations.StructureStepDecidesAcceptance := by
  intro B S F passes
  refine ⟨decodeFrame_of_exception passes, fun hf hF => ?_, fun hf hF => ?_⟩
  · subst hF
    have bytes : B.length = 5 + (B.getD 2 0#8).toNat ↔ ((B.getD 2 0#8).toNat : Int) = (B.length : Int) - 5 := by omega
    rw [← bytes]
    exact accepted_iff_of_eq_ite (decodeFrame_of_read passes hf)
  · exact accepted_iff_of_eq_ite (decodeFrame_of_write hF passes hf)

/-! ### What an accepted frame carries -/

/-- Settles O37: the registers are those that `readRegs` reads, one for each two bytes of the count. -/
theorem acceptedReadCarriesItsRegisters : Obligations.AcceptedReadCarriesItsRegisters := by
  intro B S r h
  obtain ⟨hlen, heven, rfl⟩ := decodeFrame_read_eq_ok h
  refine ⟨readRegs 0#8 B, rfl, hlen, heven, by omega, readRegs_length, fun j hj => readRegs_getElem? ?_⟩
  rwa [readRegs_length] at hj

/-- Settles O38: both writes are accepted with 8 bytes alone, and read the same places. -/
theorem acceptedWritesCarryTheirFields : Obligations.AcceptedWritesCarryTheirFields :=
  fun _ _ _ => ⟨decodeFrame_write_eq_ok (by decide), decodeFrame_write_eq_ok (by decide)⟩

/-- Settles O39: the steps' conditions over the natural numbers, where a byte is at most 255. -/
theorem lengthArithmeticDoesNotWrap : Obligations.LengthArithmeticDoesNotWrap := by
  refine ⟨fun B S r h => ?_, fun B => ⟨?_, fun h4 => wrongByteCount_iff.mpr (by omega)⟩, fun B => ⟨?_, by omega⟩⟩
  · obtain ⟨hlen, -, -⟩ := decodeFrame_read_eq_ok h
    omega
  · rw [← Bool.not_eq_true, wrongByteCount_iff, not_not]
  · rw [shortRead_iff]
    exact and_iff_right rfl

/-! ### The commands -/

/-- A normal read response that passes steps 1 to 4 with a wrong byte count fails at step 5r. -/
theorem failingStep_eq_s5r {B : List Byte} {S : Byte} (passes : framePasses B S .rhr)
    (hf : B.getD 1 0#8 = FunctionCode.rhr.code) (hbc : B.length ≠ 5 + (B.getD 2 0#8).toNat) :
    failingStep B S .rhr = some .s5r := by
  have fails : stepFails B S .rhr .s5r = true := by
    simp [stepFails, isException_of_code hf, wrongByteCount_iff.mpr hbc]
  rw [failingStep_of_normal passes hf, List.find?_cons_of_pos fails]

/-- A write response that passes steps 1 to 4 and is not 8 bytes long fails at step 5w. -/
theorem failingStep_eq_s5w {B : List Byte} {S : Byte} {F : FunctionCode} (hF : F ≠ .rhr) (passes : framePasses B S F)
    (hf : B.getD 1 0#8 = F.code) (h8 : B.length ≠ 8) : failingStep B S F = some .s5w := by
  rw [failingStep_of_normal passes hf]
  simp [stepFails, isException_of_code hf, hF, h8]

/-- Settles O41: each clause by its lemma; a frame one or two bytes short passes step 1b and fails at step 5r. -/
theorem decodeReadCommand : Obligations.DecodeReadCommand := by
  refine ⟨decode_command_encodeWord (.dec .rhr), fun S B s h => decodeCommand_of_fits h, fun B S => ?_,
    decodeFrame_rspRhr_nil, fun B S r h => (decodeFrame_read_eq_ok h).2.1, fun B S hlen => ⟨?_, fun passes hf => ?_⟩,
    decodeFrame_reqRhr_example, decodeFrame_excFrame .rhr, decodeFrame_rhr_example⟩
  · exact ⟨decodeFrame_read_malformedFrame_iff, decodeFrame_addressMismatch_iff, decodeFrame_crcMismatch_iff,
      decodeFrame_deviceException_iff⟩
  · rw [← Bool.not_eq_true, shortRead_iff]
    omega
  · exact failingStep_eq_s5r passes hf (by omega)

/-- Settles O42: each clause by its lemma; of a short frame step 5w asks 8 bytes. -/
theorem decodeWriteSingleCommand : Obligations.DecodeWriteSingleCommand := by
  refine ⟨decode_command_encodeWord (.dec .wsr), fun S B s h => decodeCommand_of_fits h, fun B S => ?_,
    decodeFrame_excFrame .wsr, fun B S h4 h7 passes hf => failingStep_eq_s5w (by decide) passes hf (by omega),
    decodeFrame_rspWsr, decodeFrame_wsr_example⟩
  exact ⟨decodeFrame_write_malformedFrame_iff (by decide), decodeFrame_addressMismatch_iff, decodeFrame_crcMismatch_iff,
    decodeFrame_deviceException_iff⟩

/-- Settles O43: each clause by its lemma; the echo of a request has a matching CRC and more than 8 bytes. -/
theorem decodeWriteMultipleCommand : Obligations.DecodeWriteMultipleCommand := by
  refine ⟨decode_command_encodeWord (.dec .wmr), fun S B s h => decodeCommand_of_fits h, fun B S => ?_,
    decodeFrame_excFrame .wmr, fun S A vs _ => ⟨crcFieldMatches_withCrc _, decodeFrame_reqWmr S A vs⟩,
    decodeFrame_wmr_example⟩
  exact ⟨decodeFrame_write_malformedFrame_iff (by decide), decodeFrame_addressMismatch_iff, decodeFrame_crcMismatch_iff,
    decodeFrame_deviceException_iff⟩

end Sys2Proof.Machine
end

section
/-! SUPPORT. Refusals and errors (60_exceptions.md): for which reason a command is refused, what an output says of the
command that left it, and which frames step 5 reports as exceptions. -/

namespace Sys2Proof.Machine

/-! ### The reason of a refusal -/

/-- Why the operation a word selects is refused, if it is: by the constraints on its operands (R64, R190). A word that
selects no operation is refused before there is one. -/
def operandRefusal (rx : Option Nat) (p : Ports) : Op → Option RefuseReason
  | .crcInit | .crcUpdate _ | .crcRead | .enc .rhr => none
  | .enc .wsr => if wsrCountOk p.value then none else some .wsrValueCount
  | .enc .wmr => if wmrCountOk p.values then none else some .wmrValueCount
  | .dec _ => if rxFits rx p.frame.length then none else some .rxTooLong

section
variable {rx : Option Nat} {p : Ports} {op : Op}

theorem operandRefusal_ne_reservedWord : operandRefusal rx p op ≠ some .reservedWord := by
  match op with
  | .crcInit | .crcUpdate _ | .crcRead | .enc .rhr => nofun
  | .enc .wsr | .enc .wmr | .dec _ => simp [operandRefusal]

theorem operandRefusal_eq_wsrValueCount_iff :
    operandRefusal rx p op = some .wsrValueCount ↔ op = .enc .wsr ∧ p.value.length ≠ 1 := by
  match op with
  | .crcInit | .crcUpdate _ | .crcRead | .enc .rhr | .enc .wmr | .dec _ => simp [operandRefusal]
  | .enc .wsr => simp [operandRefusal, wsrCountOk]

theorem operandRefusal_eq_wmrValueCount_iff :
    operandRefusal rx p op = some .wmrValueCount ↔
      op = .enc .wmr ∧ (p.values.length = 0 ∨ 127 < p.values.length) := by
  rw [← wmrCountOk_eq_false]
  match op with
  | .crcInit | .crcUpdate _ | .crcRead | .enc .rhr | .enc .wsr | .dec _ => simp [operandRefusal]
  | .enc .wmr => simp [operandRefusal]

theorem operandRefusal_eq_rxTooLong_iff :
    operandRefusal rx p op = some .rxTooLong ↔ (∃ f, op = .dec f) ∧ ∃ m, rx = some m ∧ m < p.frame.length := by
  rw [← rxFits_eq_false]
  match op with
  | .crcInit | .crcUpdate _ | .crcRead | .enc .rhr | .enc .wsr | .enc .wmr => simp [operandRefusal]
  | .dec f => simp [operandRefusal]

end

section
variable {s t : State}

/-- The three DECODEs are one command (R150, R151, R152). -/
theorem exec_dec (f : FunctionCode) (p : Ports) (s : State) :
    exec (withOperands p (.dec f)) s = decodeCommand f p.slave p.frame s := by
  cases f <;> rfl

/-- A word at the head of the host's list that selects an operation runs it on its ports (R10, R64). -/
theorem step_of_selecting_word {w : Word} {p : Ports} {op : Op} {q : List HostEvent}
    (hp : s.pending = .issue (.command w p) :: q) (hw : decodeWord w = some op) :
    step s = exec (withOperands p op) { s with pending := q } := by
  rw [step_of_pending_issue hp, runIssue, decode_command_of_some hw]

/-- A command whose word selects an operation is refused for the reason its operands give, and for no other (R190). -/
theorem exec_out_eq_refused_iff {p : Ports} {op : Op} {r : RefuseReason}
    (h : exec (withOperands p op) s = .next t) :
    t.out = .refused r ↔ operandRefusal s.rxMaxBytes p op = some r := by
  match op with
  | .crcInit | .crcUpdate _ | .crcRead | .enc .rhr =>
    cases h
    exact iff_of_false nofun nofun
  | .enc .wsr =>
    obtain ⟨v, hv, rfl⟩ | ⟨hn, rfl⟩ := execEncWsr_next h
    · simp [operandRefusal, wsrCountOk, hv]
    · simp [operandRefusal, wsrCountOk, hn]
  | .enc .wmr =>
    obtain ⟨hn, rfl⟩ | ⟨hn, rfl⟩ := encodeWmr_next h <;> simp [operandRefusal, ← wmrAccepts_eq, hn]
  | .dec f =>
    rw [exec_dec] at h
    obtain ⟨hl, rfl⟩ | ⟨hl, rfl⟩ := decodeCommand_next h <;> simp [operandRefusal, hl]

/-! ### What an output says of the command that left it -/

/-- A command that leaves a refusal did nothing but refuse (R190). -/
theorem exec_eq_refuse {i : Instr} {r : RefuseReason} (h : exec i s = .next t) (ht : t.out = .refused r) :
    t = s.refuse r := by
  obtain ⟨-, v, rfl⟩ | ⟨-, ⟨o, ho, rfl⟩ | ⟨r', rfl⟩⟩ := exec_next h
  · cases ht
  · exact absurd ht (ho r)
  · cases ht
    rfl

/-- A command that leaves a result did nothing but answer it (R186). -/
theorem exec_eq_answer_result {i : Instr} {x : Result} (h : exec i s = .next t) (ht : t.out = .result x) :
    t = s.answer (.result x) := by
  obtain ⟨-, v, rfl⟩ | ⟨-, ⟨o, -, rfl⟩ | ⟨r, rfl⟩⟩ := exec_next h
  · cases ht
  · cases ht
    rfl
  · cases ht

/-- An output left behind changes no later command (R22). -/
theorem exec_answer (i : Instr) (s : State) (o : Output) : exec i (s.answer o) = exec i s := exec_with_out i s o

end

/-! ### Exception frames -/

section
variable {B : List Byte} {S : Byte} {F : FunctionCode}

theorem stepFails_s5e_iff :
    stepFails B S F .s5e = true ↔ B.getD 1 0#8 = F.code ||| 0x80#8 ∧ B.length ≠ 5 := by
  rw [stepFails, Bool.and_eq_true, isException_iff, decide_eq_true_iff]

theorem stepFails_s5_iff :
    stepFails B S F .s5 = true ↔ B.getD 1 0#8 = F.code ||| 0x80#8 ∧ B.length = 5 := by
  rw [stepFails, Bool.and_eq_true, isException_iff, decide_eq_true_iff]

/-- Step 5 is the failing one on the exception frames of 5 bytes that pass steps 1 to 4 (R146). -/
theorem failingStep_eq_s5_iff : failingStep B S F = some .s5 ↔
    framePasses B S F ∧ B.getD 1 0#8 = F.code ||| 0x80#8 ∧ B.length = 5 := by
  have before : stepsBefore .s5 = stepsBefore .s5e ++ [.s5e] := rfl
  rw [failingStep_eq_some_iff, before, List.forall_mem_append, ← framePasses_iff, List.forall_mem_singleton,
    stepFails_s5e_iff, stepFails_s5_iff, and_assoc]
  exact and_congr_right fun _ => and_iff_right_of_imp fun ⟨_, h5⟩ ⟨_, hne⟩ => hne h5

/-- A device exception comes from step 5, which reports byte 2. -/
theorem decodeFrame_eq_deviceException_iff {c : Byte} :
    decodeFrame B S F = .err (.deviceException c) ↔ failingStep B S F = some .s5 ∧ B.getD 2 0#8 = c := by
  have source (p) : stepError B p = .deviceException c ↔ p = .s5 ∧ B.getD 2 0#8 = c := by
    cases p <;> simp [stepError, byteAt]
  simp [decodeFrame_eq_err_iff, source]

end

/-! ### The numbering of the results (R188) -/

/-- STATUS is one of 0 to 4. -/
theorem resultStatus_toNat_le (x : Result) : (resultStatus x).toNat ≤ 4 := by
  match x with
  | .ok _ | .err .malformedFrame | .err .addressMismatch | .err (.deviceException _) | .err .crcMismatch =>
    simp [resultStatus]

/-- The error that a STATUS and an EXC_CODE number, read back from R188's table. -/
def errorNumbered (status : BitVec 3) (exc : Byte) : DecodeError :=
  if status = 1#3 then .malformedFrame
  else if status = 2#3 then .addressMismatch
  else if status = 3#3 then .deviceException exc
  else .crcMismatch

/-- Reading an error's two numbers back gives the error. -/
theorem errorNumbered_resultStatus (e : DecodeError) :
    errorNumbered (resultStatus (.err e)) (resultExcCode (.err e)) = e := by
  cases e <;> rfl

end Sys2Proof.Machine
end

section
/-! PROOFS. Refusals and errors (60_exceptions.md): the four refusals, the device exception, the numbering of the
results, and the state after a decode error. -/

namespace Sys2Proof.Machine

/-- Settles O11: a word that selects nothing is refused as reserved, and one that selects an operation for the reason its
operands give. -/
theorem refusalsAreExactlyTheFour : Obligations.RefusalsAreExactlyTheFour := by
  intro s t w p q hp hs
  cases hw : decodeWord w with
  | none =>
    rw [step_of_reserved_word hp hw] at hs
    cases hs
    simp [State.refuse]
  | some op =>
    rw [step_of_selecting_word hp hw] at hs
    have reason (r : RefuseReason) : t.out = .refused r ↔ operandRefusal s.rxMaxBytes p op = some r :=
      exec_out_eq_refused_iff (s := { s with pending := q }) hs
    simp only [reason, Option.some.injEq]
    refine ⟨iff_of_false operandRefusal_ne_reservedWord nofun, operandRefusal_eq_wsrValueCount_iff,
      operandRefusal_eq_wmrValueCount_iff, operandRefusal_eq_rxTooLong_iff, fun ⟨r, hr⟩ => ?_, fun hr => ?_⟩
    · obtain rfl := exec_eq_refuse hs ((reason r).mpr hr)
      rfl
    · exact Bool.eq_iff_iff.mpr ((exec_refused_iff hs).trans (or_iff_left (not_exists.mpr hr)))

/-- Settles O34: the error comes from step 5, and step 5 is the failing one there. -/
theorem deviceExceptionExactly : Obligations.DeviceExceptionExactly := by
  intro B S F c
  rw [decodeFrame_eq_deviceException_iff, failingStep_eq_s5_iff]
  simp only [and_assoc]

/-- Settles O45: a result is answered and nothing else is done, and no command reads the output. -/
theorem decodeErrorsLeaveNoTrace : Obligations.DecodeErrorsLeaveNoTrace := by
  intro i s t e h ht
  obtain rfl := exec_eq_answer_result h ht
  exact ⟨rfl, fun i' => exec_answer i' s _⟩

/-- Settles O44: the table row by row; STATUS is at most 4, and the two numbers are read back to their error. -/
theorem statusNumbersTheResult : Obligations.StatusNumbersTheResult := by
  refine ⟨fun _ => ⟨rfl, rfl⟩, ⟨rfl, rfl⟩, ⟨rfl, rfl⟩, fun _ => ⟨rfl, rfl⟩, ⟨rfl, rfl⟩, fun x => ?_,
    fun e e' hstatus hexc => ?_⟩
  · have bound := resultStatus_toNat_le x
    refine ⟨?_, ?_, ?_⟩ <;> intro h <;> simp [h] at bound
  · rw [← errorNumbered_resultStatus e, hstatus, hexc, errorNumbered_resultStatus]

end Sys2Proof.Machine
end

section
/-! PROOFS. Reset and hazards (70_reset_and_hazards.md): a CRC accumulated from reset. -/

namespace Sys2Proof.Machine

/-- Updates alone go on from whatever `crc` holds, and beside it they leave at most another output (R106, R214): without
any byte the output stays too, and after the first byte it is an acknowledgement. -/
theorem execSeq_updates_fold_from (B : List Byte) (s : State) :
    ∃ o, execSeq (B.map .crcUpdate) s = .next { s with crc := crcFold s.crc B, out := o } := by
  cases B with
  | nil => exact ⟨s.out, rfl⟩
  | cons b B =>
    refine ⟨.ack, ?_⟩
    rw [List.map_cons, execSeq_cons_of_next (exec_crcUpdate s b)]
    exact execSeq_map_crcUpdate B (crcUpdate s.crc b) s

/-- Settles O1: at reset `crc` is the initial value of `crc16`, and the updates fold the bytes from there. -/
theorem resetLeavesAccumulatorReady : Obligations.ResetLeavesAccumulatorReady := by
  refine ⟨rfl, rfl, fun B => ?_⟩
  obtain ⟨o, run⟩ := execSeq_updates_fold_from B State.reset
  exact ⟨_, run, rfl, rfl⟩

end Sys2Proof.Machine
end

section
/-! SUPPORT. The laws of the CRC (40_crc.md section 3): the word as its two bytes, the residue, a changed byte, and the
mirror image of the shift step. -/

namespace Sys2Proof.Machine

/-! ### A word and its two bytes -/

/-- A word is its high byte, moved up, and its low byte (R9). -/
theorem word_eq_high_xor_low (x : Word) : x = ((hi8 x).setWidth 16 <<< 8) ^^^ (lo8 x).setWidth 16 := by
  apply BitVec.eq_of_getLsbD_eq
  intro i hi
  by_cases h8 : i < 8
  · simp [hi8, lo8, h8, hi]
  · have high : 8 + (i - 8) = i := by omega
    have inHigh : i - 8 < 8 := by omega
    simp [hi8, lo8, h8, high, inHigh, hi]

/-- Without its low byte a word is its high byte, moved up. -/
theorem xor_low (x : Word) : x ^^^ (lo8 x).setWidth 16 = (hi8 x).setWidth 16 <<< 8 := by
  conv_lhs => enter [1]; rw [word_eq_high_xor_low x]
  rw [BitVec.xor_assoc, BitVec.xor_self, BitVec.xor_zero]

/-- The high byte is what is left of a word shifted down by a byte. -/
theorem hi8_setWidth (x : Word) : (hi8 x).setWidth 16 = x >>> 8 := by
  apply BitVec.eq_of_toNat_eq
  simp [hi8, Nat.shiftRight_eq_div_pow]
  omega

/-- The low byte is the word cut to a byte. -/
theorem lo8_eq_setWidth (x : Word) : lo8 x = x.setWidth 8 := by
  apply BitVec.eq_of_toNat_eq
  simp [lo8]

/-- The word of two bytes, in numbers (R9): the bytes do not overlap, so the disjunction is a sum. -/
theorem be16_toNat (h l : Byte) : (be16 h l).toNat = 256 * h.toNat + l.toNat := by
  have sum : h.toNat <<< 8 ||| l.toNat = h.toNat <<< 8 + l.toNat := (Nat.shiftLeft_add_eq_or_of_lt l.isLt _).symm
  have hh : h.toNat % 65536 = h.toNat := by omega
  have hl : l.toNat % 65536 = l.toNat := by omega
  have hs : h.toNat <<< 8 % 65536 = h.toNat <<< 8 := by omega
  simp only [be16, BitVec.toNat_or, BitVec.toNat_shiftLeft, BitVec.toNat_setWidth, Nat.reducePow, hh, hl, hs, sum]
  omega

theorem hi8_toNat (v : Word) : (hi8 v).toNat = v.toNat / 256 := by
  simp [hi8, Nat.shiftRight_eq_div_pow]
  omega

theorem lo8_toNat (v : Word) : (lo8 v).toNat = v.toNat % 256 := by
  simp [lo8]

@[simp] theorem hi8_be16 (h l : Byte) : hi8 (be16 h l) = h := by
  apply BitVec.eq_of_toNat_eq
  rw [hi8_toNat, be16_toNat]
  omega

@[simp] theorem lo8_be16 (h l : Byte) : lo8 (be16 h l) = l := by
  apply BitVec.eq_of_toNat_eq
  rw [lo8_toNat, be16_toNat]
  omega

/-! ### The byte update, by the two bytes of the accumulator -/

/-- Eight steps bring the high byte down, and only the low byte feeds the polynomial back in (R112). -/
theorem crcShift8_eq (x : Word) : crcShift 8 x = (x >>> 8) ^^^ crcShift 8 ((lo8 x).setWidth 16) := by
  conv_lhs => rw [word_eq_high_xor_low x]
  rw [crcShift_xor, crcShift8_high, hi8_setWidth]

/-- The byte update, split into the high byte of the accumulator and the table entry of the rest (R112). -/
theorem crcUpdate_eq_table (c : Word) (b : Byte) :
    crcUpdate c b = (c >>> 8) ^^^ crcUpdate 0x0000#16 ((c ^^^ b.setWidth 16).setWidth 8) := by
  have noHigh : b.setWidth 16 >>> 8 = 0#16 := by
    apply BitVec.eq_of_getLsbD_eq
    intro i hi
    simp
  rw [crcUpdate, crcShift8_eq, BitVec.ushiftRight_xor_distrib, noHigh, BitVec.xor_zero, lo8_eq_setWidth, crcUpdate,
    BitVec.zero_xor]

/-- A word's own low byte, fed to it, leaves its high byte. -/
theorem crcUpdate_lo8 (c : Word) : crcUpdate c (lo8 c) = (hi8 c).setWidth 16 := by
  rw [crcUpdate, xor_low, crcShift8_high]

/-- A byte fed to itself leaves nothing. -/
theorem crcUpdate_self (b : Byte) : crcUpdate (b.setWidth 16) b = 0x0000#16 := by
  rw [crcUpdate, BitVec.xor_self]
  rfl

/-! ### The residue -/

/-- A word followed by its own wire bytes leaves nothing (R103, R110). -/
theorem crcFold_crcBytes (c : Word) : crcFold c (crcBytes c) = 0x0000#16 := by
  have twoUpdates : crcFold c (crcBytes c) = crcUpdate (crcUpdate c (lo8 c)) (hi8 c) := rfl
  rw [twoUpdates, crcUpdate_lo8, crcUpdate_self]

/-- Two bytes leave nothing exactly of the word they transmit, low byte first: the fold loses nothing (R110). -/
theorem crcFold_pair_eq_zero_iff (c : Word) (l h : Byte) : crcFold c [l, h] = 0x0000#16 ↔ c = be16 h l := by
  have own : crcFold (be16 h l) [l, h] = 0x0000#16 := by simpa [crcBytes] using crcFold_crcBytes (be16 h l)
  constructor
  · intro zero
    exact crcFold_inj [l, h] _ _ (zero.trans own.symm)
  · rintro rfl
    exact own

/-- A frame made by `withCrc` has residue zero (R110). -/
theorem crc16_withCrc (P : List Byte) : crc16 (withCrc P) = 0x0000#16 := by
  rw [crc16, withCrc, crcFold_append]
  exact crcFold_crcBytes (crc16 P)

/-- Of two or more bytes the last two can be taken off. -/
theorem exists_append_pair {B : List Byte} (h2 : 2 ≤ B.length) : ∃ P l h, B = P ++ [l, h] := by
  obtain ⟨l, h, hlast⟩ := List.length_eq_two.mp (show (B.drop (B.length - 2)).length = 2 by simp; omega)
  exact ⟨B.take (B.length - 2), l, h, by rw [← hlast, List.take_append_drop]⟩

/-- The CRC field matches exactly where the residue is zero (R110, R145). -/
theorem crcFieldMatches_iff_residue {B : List Byte} (h2 : 2 ≤ B.length) :
    crcFieldMatches B ↔ crc16 B = 0x0000#16 := by
  obtain ⟨P, l, h, rfl⟩ := exists_append_pair h2
  rw [crcFieldMatches_append, crc16, crc16, crcFold_append, crcFold_pair_eq_zero_iff]

/-! ### One changed byte -/

/-- A frame with one byte changed has another CRC: the bytes after it lose nothing of the difference (R111). -/
theorem crc16_change_byte_ne {A C : List Byte} {b b' : Byte} (h : b' ≠ b) :
    crc16 (A ++ b' :: C) ≠ crc16 (A ++ b :: C) := by
  intro same
  rw [crc16, crc16, crcFold_append, crcFold_append] at same
  exact h (crcUpdate_byte_inj _ _ _ (crcFold_inj C _ _ same))

/-- A flipped bit changes its byte. -/
theorem xor_bit_ne (b : Byte) {k : Nat} (hk : k < 8) : b ^^^ (1#8 <<< k) ≠ b := by
  intro same
  have bit := congrArg (fun x => x.getLsbD k) same
  simp [hk] at bit

/-- A flipped bit changes the CRC of all bytes (R111). -/
theorem crc16_flipBit_ne {B : List Byte} {i k : Nat} (hi : i < B.length) (hk : k < 8) :
    crc16 (flipBit B i k) ≠ crc16 B := by
  obtain ⟨A, b, C, rfl, -, hflip⟩ := List.exists_of_modify (fun b => b ^^^ (1#8 <<< k)) hi
  rw [flipBit, hflip]
  exact crc16_change_byte_ne (xor_bit_ne b hk)

@[simp] theorem flipBit_length (B : List Byte) (i k : Nat) : (flipBit B i k).length = B.length :=
  List.length_modify _ B i

/-- A flipped bit of a frame whose CRC field matches is seen by it (R111). -/
theorem not_crcFieldMatches_flipBit {B : List Byte} {i k : Nat} (h2 : 2 ≤ B.length) (hcrc : crcFieldMatches B)
    (hi : i < B.length) (hk : k < 8) : ¬ crcFieldMatches (flipBit B i k) := by
  rw [crcFieldMatches_iff_residue (by simpa using h2), ← (crcFieldMatches_iff_residue h2).mp hcrc]
  exact crc16_flipBit_ne hi hk

/-! ### The catalogue form -/

theorem reverse_xor {w : Nat} (a b : BitVec w) : (a ^^^ b).reverse = a.reverse ^^^ b.reverse := by
  apply BitVec.eq_of_getLsbD_eq
  intro i hi
  simp [BitVec.getLsbD_reverse]

/-- The mirror image of a shift up is a shift down of the mirror image. -/
theorem reverse_shiftLeft {w : Nat} (a : BitVec w) (n : Nat) : (a <<< n).reverse = a.reverse >>> n := by
  apply BitVec.eq_of_getLsbD_eq
  intro i hi
  simp [BitVec.getLsbD_reverse, BitVec.getMsbD_shiftLeft, Nat.add_comm]

/-- Bit 15 of a register is bit 0 of its mirror image. -/
theorem extract_reverse_low (c : Word) : c.reverse.extractLsb' 0 1 = c.extractLsb' 15 1 := by
  apply BitVec.eq_of_getLsbD_eq
  intro i hi
  obtain rfl : i = 0 := by omega
  simp [BitVec.getElem_reverse, BitVec.getMsbD]

/-- The mirror image of the catalogue's step is the step (R101, R109): 0xA001 is 0x8005 mirrored. -/
theorem reverse_catalogueStep (c : Word) : (catalogueStep c).reverse = crcStep c.reverse := by
  have polynomial : (0x8005#16).reverse = 0xA001#16 := by decide
  rw [catalogueStep, crcStep, extract_reverse_low]
  split
  · rw [reverse_xor, reverse_shiftLeft, polynomial]
  · rw [reverse_shiftLeft]

theorem reverse_catalogueShift (n : Nat) (c : Word) : (catalogueShift n c).reverse = crcShift n c.reverse := by
  induction n generalizing c with
  | zero => rfl
  | succ n ih => rw [catalogueShift, ih, reverse_catalogueStep, crcShift]

/-- A byte reflected into the high half is the byte in the low half, mirrored. -/
theorem reverse_high_byte (b : Byte) : (b.reverse.setWidth 16 <<< 8).reverse = b.setWidth 16 := by
  revert b
  decide +kernel

/-- The mirror image of the catalogue's byte update is the byte update (R102, R109). -/
theorem reverse_catalogueUpdate (c : Word) (b : Byte) : (catalogueUpdate c b).reverse = crcUpdate c.reverse b := by
  rw [catalogueUpdate, reverse_catalogueShift, reverse_xor, reverse_high_byte, crcUpdate]

/-- The two registers run through any bytes as mirror images of each other (R109). -/
theorem reverse_foldl_catalogueUpdate (B : List Byte) (c : Word) :
    (B.foldl catalogueUpdate c).reverse = crcFold c.reverse B := by
  induction B generalizing c with
  | nil => rfl
  | cons b B ih => rw [List.foldl_cons, ih, reverse_catalogueUpdate, crcFold, crcFold, List.foldl_cons]

/-- R109's check value, of the digits 1 to 9. -/
theorem crc16_check : crc16 [0x31#8, 0x32#8, 0x33#8, 0x34#8, 0x35#8, 0x36#8, 0x37#8, 0x38#8, 0x39#8] = 0x4B37#16 := by
  decide +kernel

end Sys2Proof.Machine
end

section
/-! PROOFS. The CRC (40_crc.md section 3): the residue, single-bit errors, the table form and the catalogue form, and what
sequences of generator commands compute. -/

namespace Sys2Proof.Machine

/-- Settles O19: a word followed by its own wire bytes leaves nothing, and no other two bytes do that. -/
theorem crcResidueIsZero : Obligations.CrcResidueIsZero :=
  ⟨crc16_withCrc, fun _ => crcFieldMatches_iff_residue⟩

/-- Settles O21: the flipped byte changes the CRC of all bytes, which was zero. -/
theorem singleBitErrorIsDetected : Obligations.SingleBitErrorIsDetected := by
  intro B i k h2 hcrc hi hk
  have zero : crc16 B = 0x0000#16 := (crcFieldMatches_iff_residue h2).mp hcrc
  exact ⟨zero ▸ crc16_flipBit_ne hi hk, not_crcFieldMatches_flipBit h2 hcrc hi hk⟩

/-- Settles O23: by induction on the bytes, the register of the catalogue is the mirror image of `crc` throughout. -/
theorem catalogueCrcIsTheSame : Obligations.CatalogueCrcIsTheSame := by
  refine ⟨fun B => ?_, crc16_check⟩
  have initial : (0xFFFF#16).reverse = crcInitial := by decide
  rw [catalogueCrc, BitVec.xor_zero, reverse_foldl_catalogueUpdate, initial, crc16]

/-- Settles O22: the byte update by the two bytes of the accumulator, and the printed entries computed. -/
theorem tableFormEqualsShiftForm : Obligations.TableFormEqualsShiftForm :=
  ⟨crcUpdate_eq_table, by decide⟩

/-- Settles O17: `crc.bytes` leaves the CRC of its bytes, and the updates fold the rest from there. -/
theorem generatorComputesCrcOfAllBytes : Obligations.GeneratorComputesCrcOfAllBytes := by
  intro A C s
  have all : crcFold (crc16 A) C = crc16 (A ++ C) := (crcFold_append crcInitial A C).symm
  refine ⟨_, ?_, rfl, all.symm⟩
  rw [execSeq_append_of_next (execSeq_pseudoCrcBytes A s), execSeq_map_crcUpdate, all]

/-- Settles O20: `crc.residue` reads the CRC of all bytes, which is zero where the field matches. -/
theorem residueProgramChecksTheFrame : Obligations.ResidueProgramChecksTheFrame := by
  intro B s h2
  refine ⟨_, execSeq_pseudoCrcResidue B s, rfl, rfl, ?_⟩
  rw [crcFieldMatches_iff_residue h2]
  constructor
  · intro read
    injection read
  · intro zero
    rw [zero]
    rfl

end Sys2Proof.Machine
end

section
/-! SUPPORT. Every instruction completes: beside the generator commands, each answers or refuses by its operands and
RX_MAX_BYTES alone; and what that makes of sequences and of steps. -/

namespace Sys2Proof.Machine

/-! ### Meanings that see nothing of the state but the parameter -/

/-- The state in which a command ends that leaves `crc` alone: after an output, or after a refusal (R122, R190). -/
def endsWith : Except RefuseReason Output → State → State
  | .ok o, s => s.answer o
  | .error r, s => s.refuse r

section
variable (x : Except RefuseReason Output) (s : State)

@[simp] theorem endsWith_rxMaxBytes : (endsWith x s).rxMaxBytes = s.rxMaxBytes := by cases x <;> rfl

/-- The same end overwrites itself. -/
theorem endsWith_endsWith : endsWith x (endsWith x s) = endsWith x s := by cases x <;> rfl

/-- The output is that of the end, whatever the state. -/
theorem endsWith_out (s' : State) : (endsWith x s).out = (endsWith x s').out := by cases x <;> rfl

/-- What the host has yet to do is handed on. -/
theorem endsWith_with_pending (q : List HostEvent) :
    endsWith x { s with pending := q } = { endsWith x s with pending := q } := by cases x <;> rfl

end

/-- A meaning whose end is decided by RX_MAX_BYTES, whatever else the state holds (R28, R64). -/
def ByParameter (m : State → Answer) : Prop :=
  ∃ f : Option Nat → Except RefuseReason Output, ∀ s, m s = .next (endsWith (f s.rxMaxBytes) s)

theorem emitFrame_byParameter (B : List Byte) : ByParameter (emitFrame B) :=
  ⟨fun _ => .ok (.frameOut B), fun _ => rfl⟩

theorem execEncWsr_byParameter (slave : Byte) (addr : Word) (value : List Word) :
    ByParameter (execEncWsr slave addr value) := by
  match value with
  | [v] => exact emitFrame_byParameter (reqWsr slave addr v)
  | [] | _ :: _ :: _ => exact ⟨fun _ => .error .wsrValueCount, fun _ => rfl⟩

theorem encodeWmr_byParameter (slave : Byte) (addr : Word) (values : List Word) :
    ByParameter (encodeWmr slave addr values) := by
  refine ⟨fun _ => if wmrAccepts values then .ok (.frameOut (reqWmr slave addr values)) else .error .wmrValueCount,
    fun s => ?_⟩
  unfold encodeWmr
  split <;> rfl

theorem decodeCommand_byParameter (F : FunctionCode) (S : Byte) (B : List Byte) :
    ByParameter (decodeCommand F S B) := by
  refine ⟨fun rx => if rxFits rx B.length then .ok (.result (decodeFrame B S F)) else .error .rxTooLong, fun s => ?_⟩
  cases h : rxFits s.rxMaxBytes B.length <;> simp [decodeCommand, h, endsWith]

/-- Every ENCODE, every DECODE and every table frame is such a meaning. -/
theorem exec_byParameter {i : Instr} (h : usesCrc i = false) : ByParameter (exec i) := by
  cases i with
  | crcInit | crcUpdate | crcRead => cases h
  | encRhr | frameReqRhr | frameReqWsr => exact emitFrame_byParameter _
  | encWsr => exact execEncWsr_byParameter _ _ _
  | encWmr | frameReqWmr => exact encodeWmr_byParameter _ _ _
  | decRhr | decWsr | decWmr | frameRspRhr | frameRspWsr | frameRspWmr | frameExcRhr | frameExcWsr | frameExcWmr =>
    exact decodeCommand_byParameter _ _ _

section
variable {m : State → Answer} {s t : State}

theorem byParameter_completes (h : ByParameter m) (s : State) : ∃ t, m s = .next t := by
  obtain ⟨f, hf⟩ := h
  exact ⟨_, hf s⟩

/-- Done twice it is done once: the parameter stands, so the end is the same. -/
theorem byParameter_idempotent (h : ByParameter m) (hm : m s = .next t) : m t = .next t := by
  obtain ⟨f, hf⟩ := h
  rw [hf s] at hm
  cases hm
  rw [hf, endsWith_rxMaxBytes, endsWith_endsWith]

/-- The output is a function of the parameter. -/
theorem byParameter_out (h : ByParameter m) {s' : State} (hrx : s.rxMaxBytes = s'.rxMaxBytes) :
    ∃ t t', m s = .next t ∧ m s' = .next t' ∧ t.out = t'.out := by
  obtain ⟨f, hf⟩ := h
  exact ⟨_, _, hf s, hf s', hrx ▸ endsWith_out _ s s'⟩

/-- What the host has yet to do is neither seen nor changed. -/
theorem byParameter_with_pending (h : ByParameter m) (hm : m s = .next t) (q : List HostEvent) :
    m { s with pending := q } = .next { t with pending := q } := by
  obtain ⟨f, hf⟩ := h
  rw [hf s] at hm
  cases hm
  rw [hf, endsWith_with_pending]

end

/-! ### One instruction -/

section
variable {s t : State}

/-- Every instruction completes in every state (R193, R213). -/
theorem exec_completes (i : Instr) (s : State) : ∃ t, exec i s = .next t := by
  cases i with
  | crcInit | crcUpdate | crcRead => exact ⟨_, rfl⟩
  | _ => exact byParameter_completes (exec_byParameter rfl) s

/-- No instruction sees or changes what the host has yet to do (R25). -/
theorem exec_with_pending {i : Instr} (h : exec i s = .next t) (q : List HostEvent) :
    exec i { s with pending := q } = .next { t with pending := q } := by
  cases i with
  | crcInit | crcUpdate | crcRead =>
    cases h
    rfl
  | _ => exact byParameter_with_pending (exec_byParameter rfl) h q

/-- The frame of an instruction: the host's later events and the parameter always stand (R29). -/
theorem exec_frame {i : Instr} (h : exec i s = .next t) : t.pending = s.pending ∧ t.rxMaxBytes = s.rxMaxBytes := by
  obtain ⟨-, v, rfl⟩ | ⟨-, ⟨o, -, rfl⟩ | ⟨r, rfl⟩⟩ := exec_next h <;> exact ⟨rfl, rfl⟩

/-- `crc` stands through every instruction but the two that write it (R20). -/
theorem exec_keeps_crc {i : Instr} (hi : writesCrc i = false) (h : exec i s = .next t) : t.crc = s.crc := by
  obtain ⟨hw, -⟩ | ⟨-, ⟨o, -, rfl⟩ | ⟨r, rfl⟩⟩ := exec_next h
  · simp [hi] at hw
  · rfl
  · rfl

/-- The mark stands, or it is set by a refusal that leaves `crc` (R23, R190). -/
theorem exec_mark {i : Instr} (h : exec i s = .next t) :
    t.refused = s.refused ∨ (t.refused = true ∧ t.crc = s.crc ∧ ∃ r, t.out = .refused r) := by
  obtain ⟨-, v, rfl⟩ | ⟨-, ⟨o, -, rfl⟩ | ⟨r, rfl⟩⟩ := exec_next h
  · exact .inl rfl
  · exact .inl rfl
  · exact .inr ⟨rfl, rfl, r, rfl⟩

/-- What ends with the mark clear began with it clear, and was not refused (R23). -/
theorem exec_clean {i : Instr} (h : exec i s = .next t) (ht : Clean t) : Clean s ∧ ∀ r, t.out ≠ .refused r := by
  have mark := exec_refused_iff h
  simp only [ht, Bool.false_eq_true, false_iff, not_or, not_exists, Bool.not_eq_true] at mark
  exact mark

/-! ### Sequences -/

/-- Every sequence completes. -/
theorem execSeq_completes (is : List Instr) (s : State) : ∃ t, execSeq is s = .next t := by
  induction is generalizing s with
  | nil => exact ⟨s, rfl⟩
  | cons i is ih =>
    obtain ⟨u, hu⟩ := exec_completes i s
    rw [execSeq_cons_of_next hu]
    exact ih u

/-- A sequence of two parts runs the first to its end and the second from there. -/
theorem execSeq_append_next {is js : List Instr} (h : execSeq (is ++ js) s = .next t) :
    ∃ u, execSeq is s = .next u ∧ execSeq js u = .next t := by
  obtain ⟨u, hu⟩ := execSeq_completes is s
  exact ⟨u, hu, execSeq_append_of_next hu js ▸ h⟩

theorem execSeq_cons_next {i : Instr} {is : List Instr} (h : execSeq (i :: is) s = .next t) :
    ∃ u, exec i s = .next u ∧ execSeq is u = .next t := by
  obtain ⟨u, hu⟩ := exec_completes i s
  exact ⟨u, hu, execSeq_cons_of_next hu is ▸ h⟩

/-- `crc` stands through a sequence without the commands that write it. -/
theorem execSeq_keeps_crc {is : List Instr} (his : ∀ i ∈ is, writesCrc i = false) (h : execSeq is s = .next t) :
    t.crc = s.crc := by
  induction is generalizing s with
  | nil =>
    cases h
    rfl
  | cons i is ih =>
    obtain ⟨hi, his⟩ := List.forall_mem_cons.mp his
    obtain ⟨u, hu, hrest⟩ := execSeq_cons_next h
    exact (ih his hrest).trans (exec_keeps_crc hi hu)

/-- A sequence that ends with the mark clear began with it clear (R23). -/
theorem execSeq_clean {is : List Instr} (h : execSeq is s = .next t) (ht : Clean t) : Clean s := by
  induction is generalizing s with
  | nil =>
    cases h
    exact ht
  | cons i is ih =>
    obtain ⟨u, hu, hrest⟩ := execSeq_cons_next h
    exact (exec_clean hu (ih hrest)).1

end

end Sys2Proof.Machine
end

section
/-! PROOFS. Whole-machine rules (10_state.md, 60_exceptions.md, 70_reset_and_hazards.md): every instruction and its frame,
the mark over a sequence, what outputs depend on, and the missing `crc.init`. -/

namespace Sys2Proof.Machine

/-- Settles O50: every meaning completes, and its frame is that of what an instruction can do. -/
theorem everyInstructionCompletesWithinItsFrame : Obligations.EveryInstructionCompletesWithinItsFrame := by
  intro i s
  obtain ⟨t, h⟩ := exec_completes i s
  obtain ⟨pending, rx⟩ := exec_frame h
  exact ⟨t, h, pending, rx, fun hi => exec_keeps_crc hi h, exec_mark h⟩

/-- Settles O52: the clear mark at the end is carried back over the rest of the sequence to the command. -/
theorem cleanEndMeansNothingWasRefused : Obligations.CleanEndMeansNothingWasRefused := by
  intro is is' i s t h ht
  obtain ⟨u, hu, hrest⟩ := execSeq_append_next h
  obtain ⟨v, hv, hv'⟩ := execSeq_cons_next hrest
  have cleanV : Clean v := execSeq_clean hv' ht
  obtain ⟨cleanU, notRefused⟩ := exec_clean hv cleanV
  exact ⟨u, v, hu, hv, hv', cleanU, cleanV, notRefused⟩

/-- Settles O54: each of these instructions is a meaning that sees only the parameter. -/
theorem outputsDependOnOperandsAlone : Obligations.OutputsDependOnOperandsAlone :=
  fun _ _ _ hi hrx => byParameter_out (exec_byParameter hi) hrx

/-- Settles O55: `crc.init` writes the same value again, `crc.read` reads the value it left, and the others see only the
parameter. -/
theorem allButUpdateAreIdempotent : Obligations.AllButUpdateAreIdempotent := by
  intro i s t hi h
  cases i with
  | crcInit | crcRead =>
    cases h
    rfl
  | crcUpdate b => exact absurd rfl (hi b)
  | _ => exact byParameter_idempotent (exec_byParameter rfl) h

/-- Settles O18: the first part leaves `crc` alone, and the updates fold the bytes from what it holds. -/
theorem updatesContinueFromWhatCrcHolds : Obligations.UpdatesContinueFromWhatCrcHolds := by
  intro is B s his
  obtain ⟨u, hu⟩ := execSeq_completes is s
  obtain ⟨o, updates⟩ := execSeq_updates_fold_from B u
  refine ⟨_, (execSeq_append_of_next hu _).trans updates, ?_⟩
  rw [← execSeq_keeps_crc his hu]
  rfl

end Sys2Proof.Machine
end

section
/-! SUPPORT. What the host issues, decoded (30_encoding.md), and the host's list run through (R48). -/

namespace Sys2Proof.Machine

/-! ### Decoding and encoding -/

/-- What is issued for an instruction decodes to it, with every operand (R61, R62, R76). -/
theorem decode_encode (i : Instr) : decode (encode i) = .ok i := by
  cases i with
  | crcInit | crcUpdate | crcRead | encRhr | encWsr | encWmr | decRhr | decWsr | decWmr =>
    exact decode_command_encodeWord _ _
  | _ => rfl

/-- The table bits of an operation on any ports are its command word (R62). -/
theorem encode_withOperands (p : Ports) (op : Op) :
    (encode (withOperands p op)).tableBits = (encodeWord op).toNat
      ∧ (encode (withOperands p op)).isFrame = false := by
  match op with
  | .crcInit | .crcUpdate _ | .crcRead | .enc .rhr | .enc .wsr | .enc .wmr | .dec .rhr | .dec .wsr | .dec .wmr =>
    exact ⟨rfl, rfl⟩

/-- A function byte that names a format is that of the format's own frame; the first three name one for each direction
(R76). -/
theorem decodeFunctionByte_eq_some {fn : Byte} {q : FrameFields} {i : Instr} (h : decodeFunctionByte fn q = some i) :
    fn.toNat = (encode i).tableBits ∧ (encode i).isFrame = true := by
  unfold decodeFunctionByte at h
  split_ifs at h <;> subst fn
  iterate 3
    · split at h <;> cases h <;> exact ⟨rfl, rfl⟩
  iterate 3
    · cases h
      exact ⟨rfl, rfl⟩

/-- An issue that decodes to an instruction has that instruction's own bits. -/
theorem tableBits_of_decode {j : Issue} {i : Instr} (h : decode j = .ok i) :
    j.tableBits = (encode i).tableBits ∧ j.isFrame = (encode i).isFrame := by
  cases j with
  | command w p =>
    cases hw : decodeWord w with
    | none =>
      rw [decode_command_of_none hw] at h
      cases h
    | some op =>
      rw [decode_command_of_some hw] at h
      cases h
      obtain ⟨bits, notFrame⟩ := encode_withOperands p op
      exact ⟨by rw [bits, ← eq_encodeWord_of_decodeWord hw]; rfl, notFrame.symm⟩
  | frame fn q =>
    cases hfn : decodeFunctionByte fn q with
    | none => simp [decode, hfn] at h
    | some i' =>
      obtain rfl : i' = i := by simpa [decode, hfn] using h
      obtain ⟨bits, frame⟩ := decodeFunctionByte_eq_some hfn
      exact ⟨bits, frame.symm⟩

/-! ### The step, by what is issued -/

/-- A step runs what the issue at the head of the list decodes to. -/
theorem step_of_decode {s : State} {j : Issue} {q : List HostEvent} {i : Instr} (hp : s.pending = .issue j :: q)
    (hj : decode j = .ok i) : step s = exec i { s with pending := q } := by
  rw [step_of_pending_issue hp, runIssue, hj]

/-- What the host issues completes, refused or not. -/
theorem runIssue_completes (j : Issue) (s : State) : ∃ t, runIssue j s = .next t := by
  unfold runIssue
  split
  · exact exec_completes _ s
  · exact ⟨_, rfl⟩

/-- A step answers a next state, or it stops on an overlap at the head of the list (R215). -/
theorem step_completes_or_overlaps (s : State) :
    (∃ t, step s = .next t) ∧ (∀ a b q, s.pending ≠ .overlap a b :: q)
    ∨ step s = .fault .overlappingCommand ∧ ∃ a b q, s.pending = .overlap a b :: q := by
  cases hp : s.pending with
  | nil => exact .inl ⟨⟨_, step_of_pending_nil hp⟩, nofun⟩
  | cons e q =>
    cases e with
    | issue j => exact .inl ⟨step_of_pending_issue hp ▸ runIssue_completes j _, nofun⟩
    | reset => exact .inl ⟨⟨_, step_of_pending_reset hp⟩, nofun⟩
    | overlap a b => exact .inr ⟨step_of_pending_overlap hp, a, b, q, rfl⟩

/-- A command does the same with a sequence issued after it, and leaves the sequence issued. -/
theorem exec_withSequence {i : Instr} {s t : State} (h : exec i s = .next t) (is : List Instr) :
    exec i (s.withSequence is) = .next (t.withSequence is) := by
  obtain ⟨pending, -⟩ := exec_frame h
  rw [State.withSequence, State.withSequence, pending]
  exact exec_with_pending h _

/-- The first command of an issued sequence is the next step; the rest stays issued. -/
theorem step_withSequence_cons {i : Instr} {s t : State} (h : exec i s = .next t) (is : List Instr) :
    step (s.withSequence (i :: is)) = .next (t.withSequence is) :=
  (step_of_decode rfl (decode_encode i)).trans (exec_withSequence h is)

/-- The host's list run for the length of a sequence is the sequence, run (R48). -/
theorem run_withSequence (is : List Instr) (s : State) :
    Host.Core.run core is.length (s.withSequence is) = execSeq is s := by
  induction is generalizing s with
  | nil => rfl
  | cons i is ih =>
    obtain ⟨t, h⟩ := exec_completes i s
    have first : core.step (s.withSequence (i :: is)) = .next (t.withSequence is) := step_withSequence_cons h is
    rw [execSeq_cons_of_next h, ← ih t]
    simp only [List.length_cons, Host.Core.run, first]

end Sys2Proof.Machine
end

section
/-! PROOFS. The step and the encoding (20_memory.md, 30_encoding.md): the host's list, the events between commands, and the
words decoded. -/

namespace Sys2Proof.Machine

/-- Settles O5: by induction on the sequence; each step takes one command off the list and runs it. -/
theorem issuedSequenceIsExecutedInOrder : Obligations.IssuedSequenceIsExecutedInOrder := run_withSequence

/-- Settles O8: each row by its word or function byte, and the operands by their ports or fields. -/
theorem decodeOfEncodeIsIdentity : Obligations.DecodeOfEncodeIsIdentity :=
  ⟨decode_encode, fun _ _ => tableBits_of_decode⟩

/-- Settles O4: every event completes but the overlap. -/
theorem stepStopsExactlyOnOverlap : Obligations.StepStopsExactlyOnOverlap := by
  intro s
  obtain ⟨⟨t, ht⟩, noOverlap⟩ | ⟨hf, overlap⟩ := step_completes_or_overlaps s
  · simp [ht, noOverlap]
  · rw [hf]
    refine ⟨iff_of_true ⟨_, rfl⟩ overlap, fun f h => ?_, nofun⟩
    cases h
    rfl

/-- Settles O2: by the step on a reset, and by the step where nothing is pending. -/
theorem betweenCommandsResetOrHold : Obligations.BetweenCommandsResetOrHold :=
  ⟨fun _ _ hp => step_of_pending_reset hp, fun _ hp => step_of_pending_nil hp⟩

/-- Settles O3: the issue is taken from the list, decoded and run. -/
theorem stepRunsTheDecodedInstruction : Obligations.StepRunsTheDecodedInstruction :=
  fun _ _ _ _ hp hj => step_of_decode hp hj

/-- Settles O9: each word is an operation's own, or none; 0x83 names the exception format. -/
theorem sampleWordsDecode : Obligations.SampleWordsDecode :=
  ⟨decode_command_encodeWord (.crcUpdate 0x32#8), decode_command_encodeWord (.enc .wsr),
    decode_command_encodeWord (.dec .wmr), decode_command_of_none (by decide), fun _ => rfl⟩

/-- Settles O12: the fields in numbers, and put together again. -/
theorem wordsAreSentHighByteFirst : Obligations.WordsAreSentHighByteFirst :=
  fun v h l => ⟨hi8_toNat v, lo8_toNat v, be16_toNat h l, rfl, be16_hi8_lo8 v⟩

end Sys2Proof.Machine
end

section
/-! SUPPORT. The frames laid out by the model (30_encoding.md section 3), decoded: their lengths, the registers of a read
response, and another slave's request. -/

namespace Sys2Proof.Machine

/-! ### Lengths (R78) -/

@[simp] theorem twoWordFrame_length (S fn : Byte) (A V : Word) : (twoWordFrame S fn A V).length = 8 := rfl

@[simp] theorem excFrame_length (F : FunctionCode) (S c : Byte) : (excFrame F S c).length = 5 := rfl

@[simp] theorem rspRhr_length (S : Byte) (regs : List Word) : (rspRhr S regs).length = 5 + 2 * regs.length := by
  simp [rspRhr]
  omega

@[simp] theorem rspRhr_byteCount (S : Byte) (regs : List Word) :
    (rspRhr S regs).getD 2 0#8 = BitVec.ofNat 8 (2 * regs.length) := rfl

/-- An accepted byte count of `n` registers fits in its byte (R72, R147). -/
theorem byteCount_toNat {n : Nat} (h : n ≤ 127) : (BitVec.ofNat 8 (2 * n)).toNat = 2 * n := by
  rw [BitVec.toNat_ofNat]
  omega

/-! ### Read responses -/

/-- The layout of a read response, for any byte count and any data bytes (R72). -/
def readFrame (S bc : Byte) (data : List Byte) : List Byte := withCrc ([S, 0x03#8, bc] ++ data)

theorem rspRhr_eq (S : Byte) (regs : List Word) :
    rspRhr S regs = readFrame S (BitVec.ofNat 8 (2 * regs.length)) (beList regs) := rfl

@[simp] theorem readFrame_length (S bc : Byte) (data : List Byte) : (readFrame S bc data).length = 5 + data.length := by
  simp [readFrame]
  omega

@[simp] theorem readFrame_byteCount (S bc : Byte) (data : List Byte) : (readFrame S bc data).getD 2 0#8 = bc := rfl

/-- A read response whose byte count promises no more bytes than it has passes steps 1 to 4. -/
theorem framePasses_readFrame {S bc : Byte} {data : List Byte} (hbc : bc.toNat ≤ data.length) :
    framePasses (readFrame S bc data) S .rhr := by
  refine framePasses_withCrc (.inl rfl) fun _ _ => ?_
  have fits : 3 + bc.toNat ≤ (bc :: data).length + 4 := by
    rw [List.length_cons]
    omega
  exact fits

/-- It is accepted exactly where the byte count is even and is the number of bytes (R146). -/
theorem decodeFrame_readFrame {S bc : Byte} {data : List Byte} (hbc : bc.toNat ≤ data.length) :
    decodeFrame (readFrame S bc data) S .rhr
      = if data.length = bc.toNat ∧ bc.toNat % 2 = 0 then .ok (.readHolding S (readRegs 0#8 (readFrame S bc data)))
        else .err .malformedFrame := by
  have accept : acceptFrame 0#8 (readFrame S bc data) .rhr = .readHolding S (readRegs 0#8 (readFrame S bc data)) := rfl
  rw [decodeFrame_of_read (framePasses_readFrame hbc) rfl, accept]
  simp only [readFrame_length, readFrame_byteCount, Nat.add_left_cancel_iff]

/-- The data of a read response stand at byte 3 and after. -/
theorem rspRhr_getElem? {S : Byte} {regs : List Word} {j : Nat} {b : Byte} (h : (beList regs)[j]? = some b) :
    (rspRhr S regs).getD (3 + j) 0#8 = b := by
  have skip : ([S, FunctionCode.rhr.code, BitVec.ofNat 8 (2 * regs.length)] ++ beList regs)[3 + j]? = some b := by
    rw [Nat.add_comm]
    exact h
  rw [List.getD_eq_getElem?_getD, rspRhr, withCrc_getElem? skip, Option.getD_some]

/-- The registers read from a read response are those it was made of (R72, R147). -/
theorem readRegs_rspRhr {S : Byte} {regs : List Word} (h : regs.length ≤ 127) :
    readRegs 0#8 (rspRhr S regs) = regs := by
  have count : ((rspRhr S regs).getD 2 0#8).toNat / 2 = regs.length := by
    rw [rspRhr_byteCount, byteCount_toNat h]
    omega
  apply List.ext_getElem?
  intro j
  by_cases hj : j < regs.length
  · have hv : regs[j]? = some regs[j] := List.getElem?_eq_getElem hj
    obtain ⟨hhi, hlo⟩ := beList_getElem? hv
    rw [readRegs_getElem? (count ▸ hj), rspRhr_getElem? hhi, show 4 + 2 * j = 3 + (2 * j + 1) by omega,
      rspRhr_getElem? hlo, be16_hi8_lo8, hv]
  · rw [List.getElem?_eq_none (by rw [readRegs_length, count]; omega), List.getElem?_eq_none (by omega)]

/-- A read response of up to 127 registers gives them back (R72, R147). -/
theorem decodeFrame_rspRhr {S : Byte} {regs : List Word} (h : regs.length ≤ 127) :
    decodeFrame (rspRhr S regs) S .rhr = .ok (.readHolding S regs) := by
  have bc := byteCount_toNat h
  have length := beList_length regs
  rw [rspRhr_eq, decodeFrame_readFrame (by omega), if_pos (by omega), ← rspRhr_eq, readRegs_rspRhr h]

/-- One of more registers is malformed: its byte count is taken modulo 256 (log entry 18). -/
theorem decodeFrame_rspRhr_of_gt {S : Byte} {regs : List Word} (h : 127 < regs.length) :
    decodeFrame (rspRhr S regs) S .rhr = .err .malformedFrame := by
  have length := beList_length regs
  have bc : (BitVec.ofNat 8 (2 * regs.length)).toNat < 2 * regs.length := by
    rw [BitVec.toNat_ofNat]
    omega
  rw [rspRhr_eq, decodeFrame_readFrame (by omega), if_neg (by omega)]

/-- A WriteMultipleRegisters response gives back its fields (R74, R149). -/
theorem decodeFrame_rspWmr (S : Byte) (A N : Word) : decodeFrame (rspWmr S A N) S .wmr = .ok (.writeMultiple S A N) := by
  have passes : framePasses (rspWmr S A N) S .wmr := framePasses_withCrc (.inl rfl) nofun
  rw [decodeFrame_of_write (by decide) passes rfl, if_pos (by simp [rspWmr])]
  simp [rspWmr, twoWordFrame_eq, acceptFrame, byteAt]

/-! ### Answered frames -/

section
variable {B : List Byte} {S : Byte} {F : FunctionCode}

/-- A frame that was answered passed steps 1 to 4; a normal read response has 5 bytes beside those it counts, and an
exception frame has 5 bytes (R146). -/
theorem framePasses_of_answered (h : isAnswered (decodeFrame B S F) = true) :
    framePasses B S F ∧ (B.getD 1 0#8 = F.code ∧ (F = .rhr → B.length = 5 + (B.getD 2 0#8).toNat)
      ∨ B.getD 1 0#8 = F.code ||| 0x80#8 ∧ B.length = 5) := by
  match hx : decodeFrame B S F with
  | .ok r =>
    obtain ⟨passes, hf⟩ := framePasses_of_ok hx
    refine ⟨passes, .inl ⟨hf, ?_⟩⟩
    rintro rfl
    exact (decodeFrame_read_eq_ok hx).1
  | .err (.deviceException c) =>
    obtain ⟨passes, hexc, h5⟩ := failingStep_eq_s5_iff.mp (decodeFrame_deviceException_iff.mp ⟨c, hx⟩)
    exact ⟨passes, .inr ⟨hexc, h5⟩⟩
  | .err .malformedFrame | .err .addressMismatch | .err .crcMismatch => simp [hx, isAnswered] at h

theorem decodeFrame_of_other_slave (hlen : lengthPasses B F) (hS : B.getD 0 0#8 ≠ S) :
    decodeFrame B S F = .err .addressMismatch :=
  decodeFrame_of_failingStep (failingStep_eq_s2_iff.mpr ⟨hlen, hS⟩)

theorem decodeFrame_of_other_function (hlen : lengthPasses B F) (hS : B.getD 0 0#8 = S)
    (hf : ¬ (B.getD 1 0#8 = F.code ∨ B.getD 1 0#8 = F.code ||| 0x80#8)) :
    decodeFrame B S F = .err .malformedFrame :=
  decodeFrame_of_failingStep (failingStep_eq_s3_iff.mpr ⟨hlen, hS, hf⟩)

theorem decodeFrame_of_wrong_crc (hlen : lengthPasses B F) (hS : B.getD 0 0#8 = S)
    (hf : B.getD 1 0#8 = F.code ∨ B.getD 1 0#8 = F.code ||| 0x80#8) (hcrc : ¬ crcFieldMatches B) :
    decodeFrame B S F = .err .crcMismatch :=
  decodeFrame_of_failingStep (failingStep_eq_s4_iff.mpr ⟨hlen, hS, hf, hcrc⟩)

/-- What one slave's request is answered with is an address mismatch to a request that went to another (R143). -/
theorem decodeFrame_for_slave {x : Result} (h : decodeFrame B S F = x) (hx : isAnswered x = true) (E : Byte) :
    decodeFrame B E F = if S = E then x else .err .addressMismatch := by
  subst h
  obtain ⟨⟨hlen, hS, -⟩, -⟩ := framePasses_of_answered hx
  split_ifs with hE
  · rw [hE]
  · exact decodeFrame_of_other_slave hlen (hS ▸ hE)

/-- DECODE of an answered frame within the bound, for a request to any slave. -/
theorem decodeCommand_for_slave {x : Result} (h : decodeFrame B S F = x) (hx : isAnswered x = true) {E : Byte}
    {s : State} (hrx : ∀ m, s.rxMaxBytes = some m → B.length ≤ m) :
    decodeCommand F E B s = .next { s with out := .result (if S = E then x else .err .addressMismatch) } := by
  rw [decodeCommand_of_fits hrx, decodeFrame_for_slave h hx]

end

end Sys2Proof.Machine
end

section
/-! PROOFS. The table's frames (30_encoding.md section 3, 42_decode.md section 6): their lengths, what they decode to, and
their limits. -/

namespace Sys2Proof.Machine

/-- Settles O58: the byte count is the number of data bytes; the writes' responses are the table's. -/
theorem normalResponseRoundTrips : Obligations.NormalResponseRoundTrips := by
  refine ⟨fun S N data hN hdata => ?_, decodeFrame_rspWsr, fun S A vs _ _ => decodeFrame_rspWmr S A _⟩
  have bc := byteCount_toNat hN
  refine ⟨readRegs 0#8 (readFrame S (BitVec.ofNat 8 (2 * N)) data), ?_, ?_⟩
  · rw [readRegs_length, readFrame_byteCount, bc]
    omega
  · exact (decodeFrame_readFrame (by omega)).trans (if_pos (by omega))

/-- Settles O29: each layout counted. -/
theorem frameLengths : Obligations.FrameLengths := by
  refine ⟨fun _ _ _ => rfl, fun _ _ _ => rfl, reqWmr_length, fun S A vs h => ?_, fun S regs h => ?_, fun _ _ _ => rfl,
    fun _ _ _ => rfl, fun _ _ _ => rfl⟩
  · obtain ⟨-, h127⟩ := (wmrCountOk_iff vs).mp h
    rw [reqWmr_length]
    omega
  · rw [rspRhr_length, rspRhr_byteCount, byteCount_toNat (of_decide_eq_true h)]

/-- Settles O46: a request frame and the ENCODE that produces it are one meaning. -/
theorem requestFramesAreWhatEncodeOutputs : Obligations.RequestFramesAreWhatEncodeOutputs :=
  ⟨fun S A N s => ⟨emitFrame_next (reqRhr S A N) s, rfl⟩, fun S A V s => ⟨emitFrame_next (reqWsr S A V) s, rfl⟩,
    fun _ _ _ _ h1 h127 => encodeWmr_of_accepted ⟨h1, h127⟩, fun _ _ _ _ => rfl⟩

/-- Settles O47: each response decodes to its fields for its own slave. -/
theorem responseFramesAreDecodedToTheirFields : Obligations.ResponseFramesAreDecodedToTheirFields := by
  refine ⟨fun E S regs s h127 hrx => ?_, fun E S A V s hrx => ⟨?_, ?_⟩⟩
  · exact decodeCommand_for_slave (decodeFrame_rspRhr h127) rfl (rspRhr_length S regs ▸ hrx)
  · exact decodeCommand_for_slave (decodeFrame_rspWsr S A V) rfl hrx
  · exact decodeCommand_for_slave (decodeFrame_rspWmr S A V) rfl hrx

/-- Settles O48: each exception frame decodes to its code for its own slave. -/
theorem exceptionFramesReportTheirCode : Obligations.ExceptionFramesReportTheirCode := by
  refine ⟨⟨rfl, rfl, rfl⟩, fun _ _ _ => rfl, fun E S c s hrx => ⟨?_, ?_, ?_⟩⟩
  · exact decodeCommand_for_slave (decodeFrame_excFrame .rhr S c) rfl hrx
  · exact decodeCommand_for_slave (decodeFrame_excFrame .wsr S c) rfl hrx
  · exact decodeCommand_for_slave (decodeFrame_excFrame .wmr S c) rfl hrx

/-- Settles O49: by the lengths of the frames, and by the byte count that does not fit. -/
theorem tableFramesPastTheLimits : Obligations.TableFramesPastTheLimits := by
  refine ⟨fun E S c A V regs s m hm => ⟨fun h => ?_, fun h8 => ?_, fun h5 => ?_⟩, fun S regs s h127 hrx => ?_⟩
  · exact decodeCommand_of_too_long hm ((rspRhr_length S regs).symm ▸ h)
  · exact ⟨decodeCommand_of_too_long hm h8, decodeCommand_of_too_long hm h8⟩
  · exact ⟨decodeCommand_of_too_long hm h5, decodeCommand_of_too_long hm h5, decodeCommand_of_too_long hm h5⟩
  · rw [← decodeFrame_rspRhr_of_gt (S := S) h127]
    exact decodeCommand_of_fits (rspRhr_length S regs ▸ hrx)

end Sys2Proof.Machine
end

section
/-! SUPPORT. The decoder's reads (R140), each inside the frame by what the steps before it let pass. -/

namespace Sys2Proof.Machine

section
variable {B : List Byte} {S : Byte} {F : FunctionCode}

/-- A read inside the frame does not see the default. -/
theorem byteAt_inside (d : Byte) {i : Nat} (h : i < B.length) : byteAt d B i = byteAt 0#8 B i := by
  rw [byteAt, byteAt, List.getD_eq_getElem B d h, List.getD_eq_getElem B 0#8 h]

/-- Past step 1a, the steps up to 4 read bytes 0, 1, 2 and the last two, which are there. -/
theorem stepsUpTo4_inside (d : Byte) (h4 : 4 ≤ B.length) :
    isException d B F = isException 0#8 B F ∧ shortRead d B F = shortRead 0#8 B F
      ∧ wrongAddress d B S = wrongAddress 0#8 B S ∧ wrongFunction d B F = wrongFunction 0#8 B F
      ∧ wrongCrc d B = wrongCrc 0#8 B := by
  have byte0 := byteAt_inside d (B := B) (i := 0) (by omega)
  have byte1 := byteAt_inside d (B := B) (i := 1) (by omega)
  have byte2 := byteAt_inside d (B := B) (i := 2) (by omega)
  have crcLow := byteAt_inside d (B := B) (i := B.length - 2) (by omega)
  have crcHigh := byteAt_inside d (B := B) (i := B.length - 1) (by omega)
  simp only [isException, shortRead, wrongAddress, wrongFunction, wrongCrc, wireCrc, byte0, byte1, byte2, crcLow,
    crcHigh, and_self]

/-- The registers of a frame as long as its byte count says are read inside it (R147). -/
theorem readRegs_inside (d : Byte) (h : B.length = 5 + (byteAt 0#8 B 2).toNat) : readRegs d B = readRegs 0#8 B := by
  rw [readRegs, readRegs, byteAt_inside d (i := 2) (by omega)]
  apply List.map_congr_left
  intro j hj
  have bound : j < (byteAt 0#8 B 2).toNat / 2 := List.mem_range.mp hj
  rw [byteAt_inside d (i := 3 + 2 * j) (by omega), byteAt_inside d (i := 4 + 2 * j) (by omega)]

/-- A read response that step 5r lets pass is read inside the frame. -/
theorem acceptFrame_read_inside (d : Byte) (h : wrongByteCount 0#8 B = false) :
    acceptFrame d B .rhr = acceptFrame 0#8 B .rhr := by
  rw [← Bool.not_eq_true, wrongByteCount_iff, not_not] at h
  rw [acceptFrame, acceptFrame, readRegs_inside d h, byteAt_inside d (i := 0) (by omega)]

/-- The fields of a write response of 8 bytes are read inside the frame (R148, R149). -/
theorem acceptFrame_write_inside (d : Byte) (hF : F ≠ .rhr) (h8 : B.length = 8) :
    acceptFrame d B F = acceptFrame 0#8 B F := by
  have byte (i : Nat) (hi : i < 8) : byteAt d B i = byteAt 0#8 B i := byteAt_inside d (h8 ▸ hi)
  cases F with
  | rhr => exact absurd rfl hF
  | wsr | wmr => simp only [acceptFrame, byte, Nat.reduceLT]

/-- Step 5 reads inside the frame: what it reads past byte 2 it reads of a frame of the length it asked. -/
theorem structureStep_inside (d : Byte) (h4 : 4 ≤ B.length) : structureStep d B F = structureStep 0#8 B F := by
  obtain ⟨exc, -⟩ := stepsUpTo4_inside (S := 0#8) (F := F) d h4
  have byte2 := byteAt_inside d (B := B) (i := 2) (by omega)
  have count : wrongByteCount d B = wrongByteCount 0#8 B := by rw [wrongByteCount, wrongByteCount, byte2]
  have odd : oddByteCount d B = oddByteCount 0#8 B := by rw [oddByteCount, oddByteCount, byte2]
  cases F with
  | rhr =>
    simp only [structureStep, exc, byte2, count, odd]
    cases hc : wrongByteCount 0#8 B with
    | true => rfl
    | false => rw [acceptFrame_read_inside d hc]
  | wsr | wmr =>
    simp only [structureStep, exc, byte2]
    by_cases h8 : B.length = 8
    · rw [acceptFrame_write_inside d (by decide) h8]
    · simp only [ne_eq, h8, not_false_eq_true, if_true]

/-- The whole decoder reads inside the frame (R140). -/
theorem decodeFrameWith_eq (d : Byte) : decodeFrameWith d B S F = decodeFrame B S F := by
  rw [decodeFrame, decodeFrameWith, decodeFrameWith]
  by_cases h : tooShort B = true
  · rw [if_pos h, if_pos h]
  · have h4 : 4 ≤ B.length := by simpa [tooShort] using h
    obtain ⟨-, short, address, function, crc⟩ := stepsUpTo4_inside (S := S) (F := F) d h4
    rw [short, address, function, crc, structureStep_inside d h4]

end

end Sys2Proof.Machine
end

section
/-! SUPPORT. One flipped bit in an answered frame (42_decode.md section 6): what the other bytes, the function byte and the
byte count become, and how far step 1 lets the frame go. -/

namespace Sys2Proof.Machine

section
variable {B : List Byte} {S : Byte} {F : FunctionCode} {i k : Nat}

/-- The other bytes of a frame stand. -/
theorem flipBit_getD_ne {j : Nat} (h : i ≠ j) : (flipBit B i k).getD j 0#8 = B.getD j 0#8 := by
  rw [List.getD_eq_getElem?_getD, List.getD_eq_getElem?_getD, flipBit, List.getElem?_modify_ne _ _ h]

/-- The byte itself has the bit flipped. -/
theorem flipBit_getD_same (h : i < B.length) : (flipBit B i k).getD i 0#8 = B.getD i 0#8 ^^^ (1#8 <<< k) := by
  rw [List.getD_eq_getElem?_getD, flipBit, List.getElem?_modify_eq, List.getElem?_eq_getElem h,
    List.getD_eq_getElem B 0#8 h]
  rfl

/-- Bit 7 tells a function code from its exception code, so flipping it exchanges the two (R75). -/
theorem code_flip_seven (F : FunctionCode) : F.code ^^^ (1#8 <<< 7) = F.code ||| 0x80#8
    ∧ (F.code ||| 0x80#8) ^^^ (1#8 <<< 7) = F.code := by
  cases F <;> decide

/-- Any other bit flipped makes neither of the two. -/
theorem code_flip_other {k : Nat} (hk : k < 8) (h7 : k ≠ 7) {b : Byte} (hb : b = F.code ∨ b = F.code ||| 0x80#8) :
    ¬ (b ^^^ (1#8 <<< k) = F.code ∨ b ^^^ (1#8 <<< k) = F.code ||| 0x80#8) := by
  have other : ∀ k : Fin 8, k.val ≠ 7 →
      (¬ (F.code ^^^ (1#8 <<< k.val) = F.code ∨ F.code ^^^ (1#8 <<< k.val) = F.code ||| 0x80#8))
      ∧ ¬ ((F.code ||| 0x80#8) ^^^ (1#8 <<< k.val) = F.code
        ∨ (F.code ||| 0x80#8) ^^^ (1#8 <<< k.val) = F.code ||| 0x80#8) := by
    cases F <;> decide
  obtain ⟨ofCode, ofExc⟩ := other ⟨k, hk⟩ h7
  obtain rfl | rfl := hb
  · exact ofCode
  · exact ofExc

/-- Only a read's normal response has the function byte 0x03. -/
theorem eq_rhr_of_code (h : (0x03#8 : Byte) = F.code ∨ (0x03#8 : Byte) = F.code ||| 0x80#8) : F = .rhr := by
  revert h
  cases F <;> decide

/-- With a wrong CRC and the right address and function byte, only step 1 comes before step 4. -/
theorem decodeFrame_of_wrong_crc_eq_ite {c : Prop} [Decidable c] (hlen : lengthPasses B F ↔ ¬ c)
    (hS : B.getD 0 0#8 = S) (hf : B.getD 1 0#8 = F.code ∨ B.getD 1 0#8 = F.code ||| 0x80#8)
    (hcrc : ¬ crcFieldMatches B) :
    decodeFrame B S F = if c then .err .malformedFrame else .err .crcMismatch := by
  split_ifs with hc
  · exact decodeFrame_of_not_lengthPasses fun h => hlen.mp h hc
  · exact decodeFrame_of_wrong_crc (hlen.mpr hc) hS hf hcrc

/-- Step 1 reads byte 1, byte 2 and the length, so a frame that keeps them passes it again. -/
theorem lengthPasses_flipBit (h1 : i ≠ 1) (h2 : i ≠ 2) (h : lengthPasses B F) : lengthPasses (flipBit B i k) F := by
  rw [lengthPasses, flipBit_length, flipBit_getD_ne h1, flipBit_getD_ne h2]
  exact h

/-! ### The table of R157, byte by byte -/

section
variable (answered : isAnswered (decodeFrame B S F) = true)
include answered

/-- An answered frame has its CRC, and a flipped bit breaks it. -/
theorem not_crcFieldMatches_of_answered (hi : i < B.length) (hk : k < 8) : ¬ crcFieldMatches (flipBit B i k) := by
  obtain ⟨⟨⟨h4, -⟩, -, -, hcrc⟩, -⟩ := framePasses_of_answered answered
  exact not_crcFieldMatches_flipBit (by omega) hcrc hi hk

/-- Byte 0: the address differs. -/
theorem decodeFrame_flip_address (hk : k < 8) : decodeFrame (flipBit B 0 k) S F = .err .addressMismatch := by
  obtain ⟨⟨hlen, hS, -⟩, -⟩ := framePasses_of_answered answered
  refine decodeFrame_of_other_slave (lengthPasses_flipBit (by decide) (by decide) hlen) ?_
  rw [flipBit_getD_same (by omega), hS]
  exact xor_bit_ne S hk

/-- Byte 1, bit 7: a normal response becomes an exception frame, which step 1 asks nothing more of; an exception frame
becomes a normal response of 5 bytes, which a read's step 1 lets pass with a byte count of up to 2. -/
theorem decodeFrame_flip_function_seven : decodeFrame (flipBit B 1 7) S F =
    if F = .rhr ∧ B.getD 1 0#8 = 0x83#8 ∧ 2 < (B.getD 2 0#8).toNat then .err .malformedFrame
    else .err .crcMismatch := by
  obtain ⟨⟨⟨h4, -⟩, hS, -, -⟩, shape⟩ := framePasses_of_answered answered
  have fn : (flipBit B 1 7).getD 1 0#8 = B.getD 1 0#8 ^^^ (1#8 <<< 7) := flipBit_getD_same (by omega)
  have count : (flipBit B 1 7).getD 2 0#8 = B.getD 2 0#8 := flipBit_getD_ne (by decide)
  obtain ⟨toExc, toCode⟩ := code_flip_seven F
  refine decodeFrame_of_wrong_crc_eq_ite ?_ ((flipBit_getD_ne (by decide)).trans hS) ?_
    (not_crcFieldMatches_of_answered answered (by omega) (by decide))
  · rw [lengthPasses, flipBit_length, fn, count]
    obtain ⟨hf, -⟩ | ⟨hexc, h5⟩ := shape
    · rw [hf, toExc]
      cases F <;> simp [FunctionCode.code, h4]
    · rw [hexc, toCode]
      cases F <;> simp [FunctionCode.code, h5]
      omega
  · rw [fn]
    obtain ⟨hf, -⟩ | ⟨hexc, -⟩ := shape
    · exact .inr (hf ▸ toExc)
    · exact .inl (hexc ▸ toCode)

/-- Byte 1, another bit: the function byte is neither of the two, whatever step 1 says. -/
theorem decodeFrame_flip_function_other (hk : k < 8) (h7 : k ≠ 7) :
    decodeFrame (flipBit B 1 k) S F = .err .malformedFrame := by
  obtain ⟨⟨⟨h4, -⟩, hS, hf, -⟩, -⟩ := framePasses_of_answered answered
  by_cases hlen : lengthPasses (flipBit B 1 k) F
  · refine decodeFrame_of_other_function hlen ((flipBit_getD_ne (by decide)).trans hS) ?_
    rw [flipBit_getD_same (by omega)]
    exact code_flip_other hk h7 hf
  · exact decodeFrame_of_not_lengthPasses hlen

/-- Byte 2 of a normal read response: the byte count, of which step 1 allows 2 more than there were. -/
theorem decodeFrame_flip_byteCount (hk : k < 8) (h1 : B.getD 1 0#8 = 0x03#8) : decodeFrame (flipBit B 2 k) S F =
    if (B.getD 2 0#8).toNat + 2 < ((flipBit B 2 k).getD 2 0#8).toNat then .err .malformedFrame
    else .err .crcMismatch := by
  obtain ⟨⟨⟨h4, -⟩, hS, hf, -⟩, shape⟩ := framePasses_of_answered answered
  have fn : (flipBit B 2 k).getD 1 0#8 = B.getD 1 0#8 := flipBit_getD_ne (by decide)
  obtain rfl : F = .rhr := eq_rhr_of_code (h1 ▸ hf)
  have length : B.length = 5 + (B.getD 2 0#8).toNat := by
    obtain ⟨-, length⟩ | ⟨hexc, -⟩ := shape
    · exact length rfl
    · rw [h1] at hexc
      cases hexc
  refine decodeFrame_of_wrong_crc_eq_ite ?_ ((flipBit_getD_ne (by decide)).trans hS) (fn ▸ hf)
    (not_crcFieldMatches_of_answered answered (by omega) hk)
  have normal : (0x03#8 : Byte) ≠ 0x83#8 := by decide
  rw [lengthPasses, flipBit_length, fn, h1]
  constructor
  · rintro ⟨-, hread⟩
    have bound := hread rfl normal
    omega
  · exact fun hbc => ⟨h4, fun _ _ => by omega⟩

/-- Every other byte: steps 1 to 3 pass as before, an exception frame's code among them. -/
theorem decodeFrame_flip_rest (hi : i < B.length) (hk : k < 8) (h : 2 < i ∨ (i = 2 ∧ B.getD 1 0#8 ≠ 0x03#8)) :
    decodeFrame (flipBit B i k) S F = .err .crcMismatch := by
  obtain ⟨⟨hlen, hS, hf, -⟩, -⟩ := framePasses_of_answered answered
  have fn : (flipBit B i k).getD 1 0#8 = B.getD 1 0#8 := flipBit_getD_ne (by omega)
  refine decodeFrame_of_wrong_crc ?_ ((flipBit_getD_ne (by omega)).trans hS) (fn ▸ hf)
    (not_crcFieldMatches_of_answered answered hi hk)
  obtain h2 | ⟨rfl, h3⟩ := h
  · exact lengthPasses_flipBit (by omega) (by omega) hlen
  · rw [lengthPasses, flipBit_length, fn]
    refine ⟨hlen.1, ?_⟩
    rintro rfl hne
    exact absurd (hf.resolve_left h3) hne

end

end

end Sys2Proof.Machine
end

section
/-! PROOFS. The decoder's reads and its answers to tampering (42_decode.md sections 1 and 6). -/

namespace Sys2Proof.Machine

/-- Settles O59: the table of R157, byte by byte. -/
theorem singleBitTamperingIsCaught : Obligations.SingleBitTamperingIsCaught := by
  intro B S F i k answered hi hk
  refine ⟨?_, ?_, ?_, ?_, decodeFrame_flip_rest answered hi hk⟩
  · rintro rfl
    exact decodeFrame_flip_address answered hk
  · rintro rfl rfl
    exact decodeFrame_flip_function_seven answered
  · rintro rfl h7
    exact decodeFrame_flip_function_other answered hk h7
  · rintro rfl h1
    exact decodeFrame_flip_byteCount answered hk h1

/-- Settles O40: each step's reads lie inside the frames that the steps before it let pass. -/
theorem decodeReadsOnlyInsideTheFrame : Obligations.DecodeReadsOnlyInsideTheFrame :=
  fun d _ _ _ => decodeFrameWith_eq d

end Sys2Proof.Machine
end

section
/-! SUPPORT. The invariant, part by part: which outputs are sound, and what a command leaves of the host's list. -/

namespace Sys2Proof.Machine

/-! ### Sound outputs -/

/-- A frame with its CRC appended is sound where its length is a request's (R78, R110). -/
theorem outputSound_withCrc {P : List Byte} (h6 : 6 ≤ P.length) (h261 : P.length ≤ 261) :
    outputSound (.frameOut (withCrc P)) = true := by
  have residue := crc16_withCrc P
  simp only [outputSound, residue, withCrc_length, beq_self_eq_true, Bool.and_true, Bool.and_eq_true, decide_eq_true_eq]
  omega

theorem outputSound_twoWordFrame (S fn : Byte) (A V : Word) :
    outputSound (.frameOut (twoWordFrame S fn A V)) = true :=
  outputSound_withCrc (le_refl 6) (by decide : 6 ≤ 261)

theorem outputSound_reqWmr {S : Byte} {A : Word} {vs : List Word} (h : wmrAccepts vs = true) :
    outputSound (.frameOut (reqWmr S A vs)) = true := by
  obtain ⟨-, h127⟩ := (wmrCountOk_iff vs).mp h
  have length : (reqWmrHeader S A vs.length ++ beList vs).length = 7 + 2 * vs.length := by simp [reqWmrHeader]; omega
  rw [reqWmr_eq]
  exact outputSound_withCrc (by omega) (by omega)

/-- A read is accepted with a byte count, so with at most 127 registers (R147). -/
theorem outputSound_result (B : List Byte) (S : Byte) (F : FunctionCode) :
    outputSound (.result (decodeFrame B S F)) = true := by
  match hx : decodeFrame B S F with
  | .ok (.readHolding S' regs) =>
    cases F with
    | rhr =>
      obtain ⟨-, -, hregs⟩ := decodeFrame_read_eq_ok hx
      obtain ⟨-, rfl⟩ := Response.readHolding.inj hregs
      refine decide_eq_true ?_
      rw [readRegs_length]
      omega
    | wsr | wmr => cases (decodeFrame_write_eq_ok (by decide) hx).2
  | .ok (.writeSingle _ _ _) | .ok (.writeMultiple _ _ _) | .err _ => rfl

section
variable {s t : State}

/-- What an instruction outputs is sound, whatever was output before it. -/
theorem exec_outputSound {i : Instr} (h : exec i s = .next t) : outputSound t.out = true := by
  have encWmr {S A vs} (hm : encodeWmr S A vs s = .next t) : outputSound t.out = true := by
    obtain ⟨hn, rfl⟩ | ⟨-, rfl⟩ := encodeWmr_next hm
    · exact outputSound_reqWmr hn
    · rfl
  have dec {F S B} (hd : decodeCommand F S B s = .next t) : outputSound t.out = true := by
    obtain ⟨-, rfl⟩ | ⟨-, rfl⟩ := decodeCommand_next hd
    · exact outputSound_result B S F
    · rfl
  cases i with
  | crcInit | crcUpdate =>
    cases h
    rfl
  | crcRead =>
    cases h
    exact beq_self_eq_true _
  | encRhr | frameReqRhr | frameReqWsr =>
    cases h
    exact outputSound_twoWordFrame _ _ _ _
  | encWsr =>
    obtain ⟨v, -, rfl⟩ | ⟨-, rfl⟩ := execEncWsr_next h
    · exact outputSound_twoWordFrame _ _ _ _
    · rfl
  | encWmr | frameReqWmr => exact encWmr h
  | decRhr | decWsr | decWmr | frameRspRhr | frameRspWsr | frameRspWmr | frameExcRhr | frameExcWsr | frameExcWmr =>
    exact dec h

/-! ### The mark and the host's list -/

theorem refusalMarked_iff : refusalMarked s = true ↔ ((∃ r, s.out = .refused r) → s.refused = true) := by
  unfold refusalMarked
  split <;> simp [*]

/-- Taking the next event off the list keeps the host's duty (R199). -/
theorem keepsDuty_tail {e : HostEvent} {q : List HostEvent} (hp : s.pending = e :: q) (h : keepsDuty s = true)
    (ht : t.pending = q) : keepsDuty t = true := by
  rw [keepsDuty, hp, List.all_cons, Bool.and_eq_true] at h
  rw [keepsDuty, ht]
  exact h.2

/-- A command issued keeps the host's later events, whether it is decoded or refused. -/
theorem runIssue_pending {j : Issue} (h : runIssue j s = .next t) : t.pending = s.pending := by
  unfold runIssue at h
  split at h
  · exact (exec_frame h).1
  · cases h
    rfl

theorem runIssue_outputSound {j : Issue} (h : runIssue j s = .next t) : outputSound t.out = true := by
  unfold runIssue at h
  split at h
  · exact exec_outputSound h
  · cases h
    rfl

/-- Every step keeps the invariant. -/
theorem step_keeps_inv (hs : Inv s) (h : step s = .next t) : Inv t := by
  obtain ⟨duty, -, -⟩ := hs
  obtain ⟨hp, rfl⟩ | ⟨q, hp, rfl⟩ | ⟨j, q, hp, hrun⟩ := step_next h
  · exact ⟨duty, rfl, rfl⟩
  · exact ⟨keepsDuty_tail hp duty rfl, rfl, rfl⟩
  · have mark := runIssue_refused_iff hrun
    exact ⟨keepsDuty_tail hp duty (runIssue_pending hrun), runIssue_outputSound hrun,
      refusalMarked_iff.mpr fun hr => mark.mpr (.inr hr)⟩

end

end Sys2Proof.Machine
end

section
/-! PROOFS. The invariant: it holds at reset, and every step keeps it. -/

namespace Sys2Proof.Machine

/-- Settles O56: nothing is pending at reset, and nothing is output. -/
theorem resetSatisfiesInvariant : Obligations.ResetSatisfiesInvariant := ⟨⟨rfl, rfl, rfl⟩, rfl, rfl, rfl⟩

/-- Settles O57: the list loses its head, the output is that of a sound command, and a refusal sets the mark. -/
theorem stepKeepsInvariant : Obligations.StepKeepsInvariant := fun _ _ => step_keeps_inv

end Sys2Proof.Machine
end

section
/-! SUPPORT. Lines of text (30_encoding.md section 2): what reading makes of a line's characters, and what the tokens of a
command assemble to. -/

namespace Sys2Proof.Machine

/-! ### From characters to tokens -/

@[simp] theorem joinText_singleton (sep w : List Char) : joinText sep [w] = w := by simp [joinText]

theorem joinText_cons_cons (w u : List Char) (us : List (List Char)) :
    joinText [',', ' '] (w :: u :: us) = w ++ ',' :: ' ' :: joinText [',', ' '] (u :: us) := by simp [joinText]

/-- A mnemonic and a space give the mnemonic, and reading goes on with the operands. -/
theorem lexFrom_operandText (n : AsmName) {operands : List (List Char)} {us : List AsmToken}
    (h : lexFrom false [] (joinText [',', ' '] operands) = some us) :
    lexFrom false [] (operandText n operands) = some (.name n :: us) :=
  lexFrom_space false (spelling n) _ [.name n] us (spelling_wordChars n) (wordToken_spelling false n) h

/-- An operand that is not the last gives its token and a comma. -/
theorem lexFrom_operand_cons {w u : List Char} {us : List (List Char)} {t : AsmToken} {ts : List AsmToken}
    (hw : w.all wordChar = true) (ht : wordToken false w = some [t])
    (hr : lexFrom false [] (joinText [',', ' '] (u :: us)) = some ts) :
    lexFrom false [] (joinText [',', ' '] (w :: u :: us)) = some (t :: .comma :: ts) := by
  rw [joinText_cons_cons]
  exact lexFrom_punct false w _ ',' .comma [t] ts hw ht rfl (lexFrom_skip false _ ts hr)

section
variable (st : NumStyle)

theorem lexFrom_byteOperand (b : Byte) : lexFrom false [] (joinText [',', ' '] [byteText st b]) = some [.num b.toNat] := by
  rw [joinText_singleton, lexFrom_last false _ (byteText_wordChars st b), wordToken_byteText]

theorem lexFrom_wordOperand (v : Word) : lexFrom false [] (joinText [',', ' '] [wordText st v]) = some [.num v.toNat] := by
  rw [joinText_singleton, lexFrom_last false _ (wordText_wordChars st v), wordToken_wordText]

theorem lexFrom_bracketOperand (bs : List Byte) :
    lexFrom false [] (joinText [',', ' '] [bracketText st bs]) = some (printBytes bs) := by
  rw [joinText_singleton, lexFrom_bracketText]

theorem lexFrom_braceOperand (vs : List Word) :
    lexFrom false [] (joinText [',', ' '] [braceText st vs]) = some (printValues vs) := by
  rw [joinText_singleton, lexFrom_braceText]

/-- A slave address before the rest of the operands. -/
theorem lexFrom_byte_cons (b : Byte) {u : List Char} {us : List (List Char)} {ts : List AsmToken}
    (hr : lexFrom false [] (joinText [',', ' '] (u :: us)) = some ts) :
    lexFrom false [] (joinText [',', ' '] (byteText st b :: u :: us)) = some (.num b.toNat :: .comma :: ts) :=
  lexFrom_operand_cons (byteText_wordChars st b) (wordToken_byteText st b) hr

/-- A register address before the rest of the operands. -/
theorem lexFrom_word_cons (v : Word) {u : List Char} {us : List (List Char)} {ts : List AsmToken}
    (hr : lexFrom false [] (joinText [',', ' '] (u :: us)) = some ts) :
    lexFrom false [] (joinText [',', ' '] (wordText st v :: u :: us)) = some (.num v.toNat :: .comma :: ts) :=
  lexFrom_operand_cons (wordText_wordChars st v) (wordToken_wordText st v) hr

/-- The operands of R123 and R124. -/
theorem lexFrom_twoWord (s : Byte) (a v : Word) :
    lexFrom false [] (joinText [',', ' '] [byteText st s, wordText st a, wordText st v]) = some (printTwoWord s a v) :=
  lexFrom_byte_cons st s (lexFrom_word_cons st a (lexFrom_wordOperand st v))

/-- The operands of a DECODE (R150). -/
theorem lexFrom_slave_bytes (s : Byte) (bs : List Byte) :
    lexFrom false [] (joinText [',', ' '] [byteText st s, bracketText st bs])
      = some (.num s.toNat :: .comma :: printBytes bs) :=
  lexFrom_byte_cons st s (lexFrom_bracketOperand st bs)

/-- A line's characters are read as the tokens of its command. -/
theorem lexFrom_lineText {i : Instr} {cs : List Char} (h : lineText st i = some cs) :
    ∃ ts, printInstr i = some ts ∧ lexFrom false [] cs = some ts := by
  cases i with
  | crcInit | crcRead =>
    cases h
    exact ⟨_, rfl, (lexFrom_last false _ (spelling_wordChars _)).trans (wordToken_spelling false _)⟩
  | crcUpdate b =>
    cases h
    exact ⟨_, rfl, lexFrom_operandText _ (lexFrom_byteOperand st b)⟩
  | encRhr s a n =>
    cases h
    exact ⟨_, rfl, lexFrom_operandText _ (lexFrom_twoWord st s a n)⟩
  | encWsr s a value =>
    match value with
    | [v] =>
      cases h
      exact ⟨_, rfl, lexFrom_operandText _ (lexFrom_twoWord st s a v)⟩
    | [] | _ :: _ :: _ => cases h
  | encWmr s a values =>
    cases h
    exact ⟨_, rfl, lexFrom_operandText _ (lexFrom_byte_cons st s (lexFrom_word_cons st a (lexFrom_braceOperand st values)))⟩
  | decRhr s bs | decWsr s bs | decWmr s bs =>
    cases h
    exact ⟨_, rfl, lexFrom_operandText _ (lexFrom_slave_bytes st s bs)⟩
  | _ => cases h

/-- Every well-formed command has a line (R67). -/
theorem exists_lineText {i : Instr} (hwf : i.wellFormed = true) (hcmd : (encode i).isFrame = false) :
    ∃ cs, lineText st i = some cs := by
  cases i with
  | crcInit | crcUpdate | crcRead | encRhr | encWmr | decRhr | decWsr | decWmr => exact ⟨_, rfl⟩
  | encWsr s a value =>
    obtain ⟨v, rfl⟩ := List.length_eq_one_iff.mp (beq_iff_eq.mp hwf)
    exact ⟨_, rfl⟩
  | _ => cases hcmd

/-- Bytes after a word, each after a space. -/
theorem lexFrom_spaced_byteTexts (bs : List Byte) {w : List Char} {t : AsmToken} (hw : w.all wordChar = true)
    (ht : wordToken false w = some [t]) :
    lexFrom false [] (w ++ bs.flatMap fun b => ' ' :: byteText st b) = some (t :: bs.map fun b => .num b.toNat) := by
  induction bs generalizing w t with
  | nil => simpa [ht] using lexFrom_last false w hw
  | cons b bs ih =>
    simpa using lexFrom_space false w _ [t] _ hw ht (ih (byteText_wordChars st b) (wordToken_byteText st b))

end

/-! ### From tokens to commands -/

/-- The tokens of a well-formed command assemble to it. -/
theorem assemble_printInstr {i : Instr} {ts : List AsmToken} (hwf : i.wellFormed = true)
    (h : printInstr i = some ts) : assemble ts = some [i] := by
  cases i with
  | crcInit | crcRead =>
    cases h
    rfl
  | crcUpdate =>
    cases h
    simp [assemble]
  | encRhr =>
    cases h
    simp [assemble, printTwoWord, asmTwoWord]
  | encWsr s a value =>
    match value with
    | [v] =>
      cases h
      simp [assemble, printTwoWord, asmTwoWord]
    | [] | _ :: _ :: _ => cases h
  | encWmr s a values =>
    have nonempty : values ≠ [] := by
      obtain ⟨h1, -⟩ := (wmrCountOk_iff values).mp hwf
      exact List.ne_nil_of_length_pos h1
    cases h
    simp [assemble, asmBraced_printValues values nonempty]
  | decRhr | decWsr | decWmr =>
    cases h
    simp [assemble, asmDecode]
  | _ => cases h

/-- A line whose tokens are known assembles to what they do. -/
theorem assembleLine_of_lexFrom {cs : List Char} {ts : List AsmToken} (h : lexFrom false [] cs = some ts) :
    assembleLine cs = assemble ts := by
  rw [assembleLine, h]

/-- The line of a well-formed command is read back as that command (R67). -/
theorem assembleLine_lineText {st : NumStyle} {i : Instr} {cs : List Char} (hwf : i.wellFormed = true)
    (h : lineText st i = some cs) : assembleLine cs = some [i] := by
  obtain ⟨ts, hts, hlex⟩ := lexFrom_lineText st h
  rw [assembleLine_of_lexFrom hlex, assemble_printInstr hwf hts]

/-- The line of `crc.bytes` is read as its expansion (R68). -/
theorem assembleLine_crcBytesText (st : NumStyle) (bs : List Byte) :
    assembleLine (crcBytesText st bs) = some (pseudoCrcBytes bs) := by
  have tokens := lexFrom_spaced_byteTexts st bs (spelling_wordChars .crcBytes) (wordToken_spelling false .crcBytes)
  have nums : takeNums (bs.map fun b => AsmToken.num b.toNat) = (bs.map BitVec.toNat, []) := by
    simpa using takeNums_bytes bs [] rfl
  rw [crcBytesText, assembleLine_of_lexFrom tokens]
  simp [assemble, nums]

/-- The line of `crc.residue` is read as its expansion (R68). -/
theorem assembleLine_crcResidueText (st : NumStyle) (bs : List Byte) :
    assembleLine (crcResidueText st bs) = some (pseudoCrcResidue bs) := by
  rw [crcResidueText, assembleLine_of_lexFrom (lexFrom_operandText .crcResidue (lexFrom_bracketOperand st bs))]
  simp [assemble]

/-! ### The examples of the rules -/

/-- R123's example. -/
theorem lineText_encRhr_example : lineText .hexUpper (.encRhr 0x32#8 0x0000#16 0x0001#16)
    = some "enc.rhr 0x32, 0x0000, 0x0001".toList := by
  decide +kernel

/-- R124's example. -/
theorem lineText_encWsr_example : lineText .hexUpper (.encWsr 0x32#8 0x0006#16 [0x00FF#16])
    = some "enc.wsr 0x32, 0x0006, 0x00FF".toList := by
  decide +kernel

/-- R150's example. -/
theorem lineText_decRhr_example :
    lineText .hexUpper (.decRhr 0x32#8 [0x32#8, 0x03#8, 0x02#8, 0x12#8, 0x34#8, 0xB1#8, 0x37#8])
      = some "dec.rhr 0x32, [32 03 02 12 34 B1 37]".toList := by
  decide +kernel

end Sys2Proof.Machine
end

section
/-! PROOFS. The assembly lines (30_encoding.md section 2): lines read back. -/

namespace Sys2Proof.Machine

/-- Settles O60: a line is read to its command's tokens, and these assemble to the command. -/
theorem assemblyLineRoundTrips : Obligations.AssemblyLineRoundTrips := by
  refine ⟨fun st i hwf hcmd => ?_, fun st bs => ⟨assembleLine_crcBytesText st bs, assembleLine_crcResidueText st bs⟩,
    lineText_encRhr_example, lineText_encWsr_example, lineText_decRhr_example, fun _ _ hwf h => assemble_printInstr hwf h⟩
  obtain ⟨cs, h⟩ := exists_lineText st hwf hcmd
  exact ⟨cs, h, assembleLine_lineText hwf h⟩

end Sys2Proof.Machine
end
